-- ==== Sys2Proof/Word.lean ====
section
/-! DEFINITION. The two word types of CORE: the byte (registers A, X, Y, P and every memory byte)
and the 16-bit word (PC and every address). spec/00_scope.md R5, R7. Their `+` is addition modulo
256 and modulo 65536, the spec's `+_8` and `+_16`. -/

namespace Sys2Proof

/-- An unsigned 8-bit value, the spec's `u8` (R7). -/
abbrev Byte := BitVec 8

/-- An unsigned 16-bit value, the spec's `u16` (R7). -/
abbrev Word := BitVec 16

end Sys2Proof
end

