-- ==== Sys2Proof/Config.lean ====
section
/-! DEFINITION. The parameters of CORE, with the value the spec gives each (spec/00_scope.md R5).
No parameter is a free value: the spec settles every one. -/

namespace Sys2Proof

/-- The two contents of the instruction table (spec/30_encoding.md R55): `general` has the eleven
assigned opcodes of R54, `minimal` only the four the spec's source shows as bytes. -/
inductive TableProfile where
  | general
  | minimal
  deriving DecidableEq, Repr

/-- `TABLE_PROFILE`, the profile the machine runs: GENERAL, the spec's default (R5, R55).
UNVERIFIED: the spec's own decision D1 (log 3). -/
def Config.tableProfile : TableProfile := .general

/-- The address of the reset vector's low byte (R5, spec/70_reset_and_hazards.md R181). -/
def Config.resetVector : Word := 0xFFFC#16

/-- `LOAD_BASE`, where `load` places a program image (R5, R186). -/
def Config.loadBase : Word := 0x8000#16

/-- `LOAD_MAX`, the largest image in bytes (R5, R186). -/
def Config.loadMax : Nat := 0x8000

/-- The number of bytes of memory (R5, spec/10_state.md R21). -/
def Config.memorySize : Nat := 0x10000

end Sys2Proof
end

