-- ==== Sys2Proof/Syntax.lean ====
section
/-! DEFINITION. The instructions of CORE, one constructor per row of spec/opcode_table.json in the
table's order, and the types of an instruction-table entry (spec/30_encoding.md R54, R56, R61). -/

namespace Sys2Proof

/-- An instruction with its operand bytes. `b` is the one operand byte of format F2; `w` is the
operand word `hi : lo` of format F3 (R50, R53). -/
inductive Instr where
  /-- BRK, opcode 0x00, Implied (R140). -/
  | brk
  /-- LDA (b,X), opcode 0xA1, Indirect_X (R116). -/
  | ldaIndirectX (b : Byte)
  /-- LDA b, opcode 0xA5, ZeroPage (R111). -/
  | ldaZeroPage (b : Byte)
  /-- LDA #b, opcode 0xA9, Immediate (R110). -/
  | ldaImmediate (b : Byte)
  /-- TAX, opcode 0xAA, Implied (R130). -/
  | tax
  /-- LDA w, opcode 0xAD, Absolute (R113). -/
  | ldaAbsolute (w : Word)
  /-- LDA (b),Y, opcode 0xB1, Indirect_Y (R117). -/
  | ldaIndirectY (b : Byte)
  /-- LDA b,X, opcode 0xB5, ZeroPage_X (R112). -/
  | ldaZeroPageX (b : Byte)
  /-- LDA w,Y, opcode 0xB9, Absolute_Y (R115). -/
  | ldaAbsoluteY (w : Word)
  /-- LDA w,X, opcode 0xBD, Absolute_X (R114). -/
  | ldaAbsoluteX (w : Word)
  /-- INX, opcode 0xE8, Implied (R131). -/
  | inx
  deriving DecidableEq, Repr

/-- A table entry's mnemonic; `invalid` is the sentinel's (R54, R56). -/
inductive Mnemonic where
  | brk
  | lda
  | tax
  | inx
  | invalid
  deriving DecidableEq, Repr

/-- The closed set of twelve addressing modes and the sentinel `none` (R61). -/
inductive AddressingMode where
  | implied
  | accumulator
  | immediate
  | zeroPage
  | zeroPageX
  | zeroPageY
  | relative
  | absolute
  | absoluteX
  | absoluteY
  | indirectX
  | indirectY
  | none
  deriving DecidableEq, Repr

/-- An entry of the instruction table (R54). `cycles` and `pageCrossPlusOne` are the cycle
metadata of spec/70_reset_and_hazards.md R191 and R192; no register, flag, byte or fault depends
on them. -/
structure TableEntry where
  mnemonic : Mnemonic
  length : Nat
  cycles : Nat
  mode : AddressingMode
  pageCrossPlusOne : Bool
  deriving DecidableEq, Repr

/-- A row of the opcode map: the opcode byte, whether the spec's source shows the byte (the rows
that MINIMAL keeps, R55), and the entry. -/
structure TableRow where
  opcode : Byte
  shownBySource : Bool
  entry : TableEntry
  deriving DecidableEq, Repr

end Sys2Proof
end

