-- ==== Sys2Proof/WellFormed.lean ====
section
/-! DEFINITION. Which instructions a table profile has. Every operand byte of an assigned
instruction is legal (spec/30_encoding.md R57), so the one check is that the profile assigns the
instruction's opcode (R54, R55). -/

namespace Sys2Proof

/-- `i` has an opcode under `prof`: all eleven under GENERAL, under MINIMAL only BRK, LDA
immediate, TAX and INX (R55). -/
def Instr.wellFormed (prof : TableProfile) : Instr → Bool
  | .brk => true
  | .ldaIndirectX _ => prof == .general
  | .ldaZeroPage _ => prof == .general
  | .ldaImmediate _ => true
  | .tax => true
  | .ldaAbsolute _ => prof == .general
  | .ldaIndirectY _ => prof == .general
  | .ldaZeroPageX _ => prof == .general
  | .ldaAbsoluteY _ => prof == .general
  | .ldaAbsoluteX _ => prof == .general
  | .inx => true

end Sys2Proof
end

