-- ==== Sys2Proof/Decode.lean ====
section
/-! DEFINITION. The byte-order helpers, the instruction table, the decoder and the encoder
(spec/30_encoding.md R50 to R57). The decoder looks the whole opcode byte up in the table (R51,
R52) and takes as many operand bytes as the entry's mode has. -/

namespace Sys2Proof

/-! ## Byte order -/

/-- `hi : lo`, that is `hi * 256 + lo` (R7). -/
def mkWord (hi lo : Byte) : Word := hi ++ lo

/-- `w[7:0]` (R7). -/
def loByte (w : Word) : Byte := w.extractLsb' 0 8

/-- `w[15:8]`, the page of an address (R7). -/
def hiByte (w : Word) : Byte := w.extractLsb' 8 8

/-! ## The instruction table -/

/-- The entry of every opcode without a row: ("invalid", 0, 0, None) (R56; C2 for its mode,
log 24). -/
def sentinelEntry : TableEntry := ⟨.invalid, 0, 0, .none, false⟩

/-- The opcode map of R54. The seven rows not shown by the source are UNVERIFIED (D1, log 3), and
so is every cycle count (D9, log 9). -/
def tableRows : List TableRow := [
  ⟨0x00#8, true,  ⟨.brk, 1, 7, .implied,   false⟩⟩,
  ⟨0xA1#8, false, ⟨.lda, 2, 6, .indirectX, false⟩⟩,
  ⟨0xA5#8, false, ⟨.lda, 2, 3, .zeroPage,  false⟩⟩,
  ⟨0xA9#8, true,  ⟨.lda, 2, 2, .immediate, false⟩⟩,
  ⟨0xAA#8, true,  ⟨.tax, 1, 2, .implied,   false⟩⟩,
  ⟨0xAD#8, false, ⟨.lda, 3, 4, .absolute,  false⟩⟩,
  ⟨0xB1#8, false, ⟨.lda, 2, 5, .indirectY, true⟩⟩,
  ⟨0xB5#8, false, ⟨.lda, 2, 4, .zeroPageX, false⟩⟩,
  ⟨0xB9#8, false, ⟨.lda, 3, 4, .absoluteY, true⟩⟩,
  ⟨0xBD#8, false, ⟨.lda, 3, 4, .absoluteX, true⟩⟩,
  ⟨0xE8#8, true,  ⟨.inx, 1, 2, .implied,   false⟩⟩]

/-- The rows a profile assigns: MINIMAL keeps the ones the source shows (R55). -/
def assignedUnder (prof : TableProfile) (r : TableRow) : Bool :=
  prof == .general || r.shownBySource

/-- `TABLE[op]`: the assigned entry, or the sentinel (R54, R56). -/
def table (prof : TableProfile) (op : Byte) : TableEntry :=
  match tableRows.find? (fun r => r.opcode == op && assignedUnder prof r) with
  | some r => r.entry
  | none => sentinelEntry

/-! ## Decode -/

/-- Why a list of bytes is no instruction. -/
inductive DecodeError where
  /-- There is no opcode byte. -/
  | noBytes
  /-- The opcode's entry is the sentinel (R56). -/
  | unassigned (op : Byte)
  /-- The entry names LDA in a mode LDA has no form for (R54, R57); no row of the table does
  (log 26). -/
  | noHandler (op : Byte)
  /-- The operand bytes are missing. -/
  | truncated (op : Byte)
  deriving DecidableEq, Repr

/-- The one operand byte of format F2 (R50). -/
def takeByte (op : Byte) (mk : Byte → Instr) : List Byte → Except DecodeError (Instr × List Byte)
  | b :: rest => .ok (mk b, rest)
  | [] => .error (.truncated op)

/-- The two operand bytes of format F3, low byte first (R50, R53). -/
def takeWord (op : Byte) (mk : Word → Instr) : List Byte → Except DecodeError (Instr × List Byte)
  | lo :: hi :: rest => .ok (mk (mkWord hi lo), rest)
  | [_] => .error (.truncated op)
  | [] => .error (.truncated op)

/-- The form of LDA that an addressing mode selects (R54). -/
def decodeLda (op : Byte) (mode : AddressingMode) (rest : List Byte) :
    Except DecodeError (Instr × List Byte) :=
  match mode with
  | .immediate => takeByte op .ldaImmediate rest
  | .zeroPage => takeByte op .ldaZeroPage rest
  | .zeroPageX => takeByte op .ldaZeroPageX rest
  | .indirectX => takeByte op .ldaIndirectX rest
  | .indirectY => takeByte op .ldaIndirectY rest
  | .absolute => takeWord op .ldaAbsolute rest
  | .absoluteX => takeWord op .ldaAbsoluteX rest
  | .absoluteY => takeWord op .ldaAbsoluteY rest
  | .implied => .error (.noHandler op)
  | .accumulator => .error (.noHandler op)
  | .zeroPageY => .error (.noHandler op)
  | .relative => .error (.noHandler op)
  | .none => .error (.noHandler op)

/-- The instruction at the front of a list of bytes, and the bytes after it (R50 to R52). -/
def decode (prof : TableProfile) : List Byte → Except DecodeError (Instr × List Byte)
  | [] => .error .noBytes
  | op :: rest =>
    match (table prof op).mnemonic with
    | .brk => .ok (.brk, rest)
    | .lda => decodeLda op (table prof op).mode rest
    | .tax => .ok (.tax, rest)
    | .inx => .ok (.inx, rest)
    | .invalid => .error (.unassigned op)

/-! ## Encode -/

/-- The opcode byte of an instruction (R54). -/
def Instr.opcode : Instr → Byte
  | .brk => 0x00#8
  | .ldaIndirectX _ => 0xA1#8
  | .ldaZeroPage _ => 0xA5#8
  | .ldaImmediate _ => 0xA9#8
  | .tax => 0xAA#8
  | .ldaAbsolute _ => 0xAD#8
  | .ldaIndirectY _ => 0xB1#8
  | .ldaZeroPageX _ => 0xB5#8
  | .ldaAbsoluteY _ => 0xB9#8
  | .ldaAbsoluteX _ => 0xBD#8
  | .inx => 0xE8#8

/-- The operand bytes of an instruction, in increasing address order (R50). -/
def Instr.operandBytes : Instr → List Byte
  | .brk => []
  | .ldaIndirectX b => [b]
  | .ldaZeroPage b => [b]
  | .ldaImmediate b => [b]
  | .tax => []
  | .ldaAbsolute w => [loByte w, hiByte w]
  | .ldaIndirectY b => [b]
  | .ldaZeroPageX b => [b]
  | .ldaAbsoluteY w => [loByte w, hiByte w]
  | .ldaAbsoluteX w => [loByte w, hiByte w]
  | .inx => []

/-- The bytes of an instruction: byte 0 is the opcode, then the operand bytes (R50). -/
def encode (i : Instr) : List Byte := i.opcode :: i.operandBytes

/-- The mnemonic of an instruction (R54). -/
def Instr.mnemonic : Instr → Mnemonic
  | .brk => .brk
  | .ldaIndirectX _ => .lda
  | .ldaZeroPage _ => .lda
  | .ldaImmediate _ => .lda
  | .tax => .tax
  | .ldaAbsolute _ => .lda
  | .ldaIndirectY _ => .lda
  | .ldaZeroPageX _ => .lda
  | .ldaAbsoluteY _ => .lda
  | .ldaAbsoluteX _ => .lda
  | .inx => .inx

/-- The addressing mode of an instruction (R54). -/
def Instr.mode : Instr → AddressingMode
  | .brk => .implied
  | .ldaIndirectX _ => .indirectX
  | .ldaZeroPage _ => .zeroPage
  | .ldaImmediate _ => .immediate
  | .tax => .implied
  | .ldaAbsolute _ => .absolute
  | .ldaIndirectY _ => .indirectY
  | .ldaZeroPageX _ => .zeroPageX
  | .ldaAbsoluteY _ => .absoluteY
  | .ldaAbsoluteX _ => .absoluteX
  | .inx => .implied

/-! ## The table's bit numbering -/

/-- The three bytes that the low `nbits` bits of `w` give, the first byte in bits 7 to 0, every
bit above `nbits` zero (three bytes are the longest instruction, R50). -/
def tableBytes (nbits w : Nat) : List Byte :=
  [BitVec.ofNat 8 (w % 2 ^ nbits), BitVec.ofNat 8 (w % 2 ^ nbits / 256),
    BitVec.ofNat 8 (w % 2 ^ nbits / 65536)]

/-- The instruction whose bits are `w`, as the opcode table numbers them. -/
def decodeTableWord (nbits w : Nat) : Option Instr :=
  match decode Config.tableProfile (tableBytes nbits w) with
  | .ok (i, _) => some i
  | .error _ => none

end Sys2Proof
end

