-- ==== Sys2Proof/Machine/State.lean ====
section
/-! DEFINITION. The state of CORE (spec/10_state.md R23), the state after reset, and the reasons a
step does not answer a next state. -/

namespace Sys2Proof.Machine

/-- The contents of memory: (address, byte) pairs in rising address order, none of them 0x00, which
is what an unlisted address reads as (spec/20_memory.md R30: "zero-initialized at construction").
The form is `Memory.wf` in Machine/Ops.lean. -/
abbrev Memory := List Host.Cell

/-- `RUN` (R18). -/
inductive RunState where
  | running
  | halted
  | faulted
  deriving DecidableEq, Repr

/-- What `FAULT` records (R19; spec/60_exceptions.md R151, R152), one constructor per fault of a
step (R150). -/
inductive FaultRecord where
  | unimplementedOpcode (opcode : Byte) (opcAddr : Word)
  | wordReadAtTop (opcAddr : Word)
  deriving DecidableEq, Repr

/-- The machine state `(A, X, Y, P, PC, RUN, FAULT, MEM)` of R23. -/
structure State where
  /-- The accumulator (R10). -/
  a : Byte
  /-- The X index register (R11). -/
  x : Byte
  /-- The Y index register (R12). -/
  y : Byte
  /-- The status register: bit 1 is Z, bit 7 is N, the others are reserved (R15, R16). -/
  p : Byte
  /-- The program counter (R13). -/
  pc : Word
  /-- The run state (R18). -/
  run : RunState
  /-- The fault record (R19). -/
  fault : Option FaultRecord
  /-- The 65536 bytes of memory (R21). -/
  mem : Memory
  deriving DecidableEq, Repr

/-- The machine right after the reset of a new core (R24): memory all zero, so the reset vector
reads 0x0000 and PC is 0x0000 (log 1). Y is 0x00 by the spec's decision D2 (log 2). -/
def State.reset : State :=
  { a := 0x00#8, x := 0x00#8, y := 0x00#8, p := 0x00#8, pc := 0x0000#16,
    run := .running, fault := none, mem := [] }

/-- Why `step` has no next state. A fault of a step in the spec's sense (R157) is not here: it is a
next state in which RUN is Faulted. -/
inductive Fault where
  /-- Raised by `step` when RUN is Halted: the core has no step (R18, R71). Safe: the model stops
  where the spec says nothing changes (log 13). -/
  | coreHalted
  /-- Raised by `step` when RUN is Faulted: the core has no step (R18, R71). Safe (log 13). -/
  | coreFaulted
  deriving DecidableEq, Repr

/-- Why an instruction has no meaning. -/
inductive Refusal where
  /-- Answered by an arm of `exec` whose instruction is not modelled; no arm does. Safe. -/
  | notModelled (mnemonic : String)
  deriving DecidableEq, Repr

end Sys2Proof.Machine
end

