-- ==== Sys2Proof/Machine/Ops.lean ====
section
/-! DEFINITION. The named operations over memory and registers: the four memory accessors
(spec/20_memory.md R31 to R34), the fetch (spec/40_fetch_dispatch.md R72), the entry of a fault
(spec/60_exceptions.md R157), reset and the copy that `load` makes (spec/70_reset_and_hazards.md
R180, R186). -/

namespace Sys2Proof.Machine

/-! ## Memory as a list -/

/-- The byte listed at address `k`; an unlisted address reads 0x00 (R30). -/
def Memory.readAt : Memory → Nat → Byte
  | [], _ => 0x00#8
  | (a, v) :: m, k => if a = k then v else Memory.readAt m k

/-- List `v` at address `k`, in the place the order asks for. -/
def Memory.insertAt : Memory → Nat → Byte → Memory
  | [], k, v => [(k, v)]
  | (a, b) :: m, k, v =>
    if k < a then (k, v) :: (a, b) :: m
    else if k = a then (k, v) :: m
    else (a, b) :: Memory.insertAt m k v

/-- Unlist address `k`. -/
def Memory.eraseAt (m : Memory) (k : Nat) : Memory := m.filter (fun c => c.1 != k)

/-- The canonical form from address `lo` on: rising addresses below 65536, no byte 0x00. -/
def Memory.wfFrom : Nat → Memory → Bool
  | _, [] => true
  | lo, (a, v) :: m =>
    decide (lo ≤ a) && decide (a < Config.memorySize) && v != 0x00#8 && Memory.wfFrom (a + 1) m

/-- The canonical form of a memory: equal memories are equal lists (log 20). -/
def Memory.wf (m : Memory) : Bool := Memory.wfFrom 0 m

/-! ## The accessors -/

/-- `MemRead(addr, 1)` (R31): total, no side effect. -/
def Memory.read (m : Memory) (addr : Word) : Byte := Memory.readAt m addr.toNat

/-- `MemWrite(addr, 1, v)` (R34). Writing 0x00, which an unlisted address reads as, unlists. -/
def Memory.write (m : Memory) (addr : Word) (v : Byte) : Memory :=
  if v = 0x00#8 then Memory.eraseAt m addr.toNat else Memory.insertAt m addr.toNat v

/-- `MemRead(addr, 2)` (R32, R33): little-endian; `none` where the spec raises `WordReadAtTop` or
refuses the host's call, that is at 0xFFFF (D5, log 6). -/
def Memory.readWord (m : Memory) (addr : Word) : Option Word :=
  if addr = 0xFFFF#16 then none
  else some (mkWord (Memory.read m (addr + 1#16)) (Memory.read m addr))

/-- `MemWrite(addr, 2, v)` (R34): low byte first; `none`, refused, at 0xFFFF (D5, log 6). -/
def Memory.writeWord (m : Memory) (addr : Word) (w : Word) : Option Memory :=
  if addr = 0xFFFF#16 then none
  else some (Memory.write (Memory.write m addr (loByte w)) (addr + 1#16) (hiByte w))

/-- Bytes copied to `addr`, `addr + 1`, and so on (the loop of R186). -/
def Memory.copy (m : Memory) (addr : Word) : List Byte → Memory
  | [] => m
  | v :: vs => Memory.copy (Memory.write m addr v) (addr + 1#16) vs

/-! ## Fetch and PC -/

/-- PC moved on by `n`, modulo 65536 (R14, R75; D4, log 5). -/
def advancePc (n : Word) (s : State) : State := { s with pc := s.pc + n }

/-- PC after the fetch of the opcode: one further (R72). -/
def fetchAdvance (s : State) : State := advancePc 1#16 s

/-- The bytes at PC, PC + 1 and PC + 2 modulo 65536 (R50): as many as the longest instruction. -/
def fetchBytes (s : State) : List Byte :=
  [Memory.read s.mem s.pc, Memory.read s.mem (s.pc + 1#16), Memory.read s.mem (s.pc + 2#16)]

/-- The instruction whose bytes stand at PC (R72, R74). -/
def fetchInstr (prof : TableProfile) (s : State) : Except DecodeError Instr :=
  match decode prof (fetchBytes s) with
  | .ok (i, _) => .ok i
  | .error e => .error e

/-! ## Run state and faults -/

/-- `RUN <- Halted` (R140). -/
def halt (s : State) : State := { s with run := .halted }

/-- `raise F(info)` (R157), applied to the state the fetch left: the record and RUN are written and
nothing else (D3, log 4). There is no return from it but `resetCore` (R159). -/
def raise (f : FaultRecord) (s : State) : State := { s with fault := some f, run := .faulted }

/-- The step of an opcode with no execution handler (R151, R57): the fetch, then the fault with the
opcode and the address it was fetched from. -/
def raiseUnimplemented (s : State) : State :=
  raise (.unimplementedOpcode (Memory.read s.mem s.pc) s.pc) (fetchAdvance s)

/-! ## Reset and load -/

/-- The launch state on a memory (R23, R24, R180). The vector's address 0xFFFC is not 0xFFFF, so the
word is read byte by byte with no fault (R180, R181). -/
def launch (m : Memory) : State :=
  { a := 0x00#8, x := 0x00#8, y := 0x00#8, p := 0x00#8,
    pc := mkWord (Memory.read m (Config.resetVector + 1#16)) (Memory.read m Config.resetVector),
    run := .running, fault := none, mem := m }

/-- `reset()` (R180): allowed in every run state, memory kept (R182, D11, log 11). -/
def resetCore (s : State) : State := launch s.mem

/-- `load(program)` (R186): `none` for an image over `LOAD_MAX` (R153), else the copy and then the
reset vector (D12, log 12). -/
def loadImage (image : List Byte) (m : Memory) : Option Memory :=
  if image.length ≤ Config.loadMax then
    Memory.writeWord (Memory.copy m Config.loadBase image) Config.resetVector Config.loadBase
  else none

/-! ## Placing an instruction -/

/-- Three bytes stored at PC, PC + 1 and PC + 2, with RUN and FAULT as a core that fetches has them
(log 19). -/
def placeAtPc (bytes : List Byte) (s : State) : State :=
  { s with mem := Memory.copy s.mem s.pc bytes, run := .running, fault := none }

end Sys2Proof.Machine
end

