-- ==== Sys2Proof/Machine/Flags.lean ====
section
/-! DEFINITION. The status register's two flags (spec/10_state.md R15 to R17) and the flag update
(spec/40_fetch_dispatch.md R76). -/

namespace Sys2Proof.Machine

/-- Z, bit 1 of P (R17). -/
def zFlag (p : Byte) : Bool := p.getLsbD 1

/-- N, bit 7 of P (R17). -/
def nFlag (p : Byte) : Bool := p.getLsbD 7

/-- The reserved bits of P in place: bits 6, 5, 4, 3, 2 and 0 (R16). -/
def reservedBits (p : Byte) : Byte := p &&& 0x7D#8

/-- The Zero flag set when the result is 0, cleared otherwise, by masked OR and AND (R76). -/
def setZ (p v : Byte) : Byte := if v = 0x00#8 then p ||| 0x02#8 else p &&& 0xFD#8

/-- The Negative flag set when bit 7 of the result is 1, cleared otherwise (R76). -/
def setN (p v : Byte) : Byte := if v.getLsbD 7 then p ||| 0x80#8 else p &&& 0x7F#8

/-- `setZN(v)` on the status value `p` (R76): Z, then N. -/
def setZN (p v : Byte) : Byte := setN (setZ p v) v

end Sys2Proof.Machine
end

