-- ==== Sys2Proof/Machine/Operands.lean ====
section
/-! DEFINITION. The addressing-mode resolver (spec/41_addressing_modes.md R90 to R105): the
effective-address functions that the meanings use, and `resolve`, which reads the operand bytes at
PC as the spec's `Resolve(mode)` does, for all twelve modes. -/

namespace Sys2Proof.Machine

/-! ## Extension -/

/-- `zext_16(b)` (spec/00_scope.md R7). -/
def zext16 (b : Byte) : Word := b.setWidth 16

/-- `sext_16(b)`: two's complement, the machine's only signed reading (R7, R101). -/
def sext16 (b : Byte) : Word := b.signExtend 16

/-! ## Effective addresses -/

/-- ZeroPage: the byte, zero-extended (R94). -/
def zeroPageEa (b : Byte) : Word := zext16 b

/-- ZeroPage_X and ZeroPage_Y: the sum in 8 bits, then zero-extended (R95, R96). -/
def zeroPageIndexedEa (b index : Byte) : Word := zext16 (b + index)

/-- Absolute_X and Absolute_Y: the word plus the zero-extended index, modulo 65536 (R98, R99). -/
def absoluteIndexedEa (w : Word) (index : Byte) : Word := w + zext16 index

/-- The word a zero-page pointer holds: low byte at `ptr`, high byte at `ptr + 1`, which is 0x0100
for the pointer at 0x00FF (R102, R103; D6, log 7). -/
def pointerWord (m : Memory) (ptr : Byte) : Word :=
  mkWord (Memory.read m (zext16 ptr + 1#16)) (Memory.read m (zext16 ptr))

/-- Indirect_X: the word at the zero-page pointer `b + X`, the sum in 8 bits (R102). -/
def indirectXEa (m : Memory) (b x : Byte) : Word := pointerWord m (b + x)

/-- Indirect_Y: the word at the zero-page pointer `b`, plus Y modulo 65536 (R103). -/
def indirectYEa (m : Memory) (b y : Byte) : Word := absoluteIndexedEa (pointerWord m b) y

/-- Relative: the offset added to the address after the operand byte, modulo 65536 (R101; D7,
log 8). -/
def relativeTarget (operandAddr : Word) (b : Byte) : Word := operandAddr + 1#16 + sext16 b

/-- The page-cross marker: adding the index changed the high byte of the address (R100). -/
def pageCrossed (base ea : Word) : Bool := hiByte base != hiByte ea

/-! ## The resolver -/

/-- What a mode resolves to (R90). -/
inductive Operand where
  /-- Implied: nothing to work on. -/
  | noOperand
  /-- Accumulator: the operand is register A. -/
  | acc
  /-- Immediate: a literal byte, no address. -/
  | lit (b : Byte)
  /-- A byte in memory at the effective address, with the page-cross marker. -/
  | addr (ea : Word) (crossed : Bool)
  /-- Relative: an instruction address. -/
  | target (t : Word)
  deriving DecidableEq, Repr

/-- The answer of `resolve`. -/
inductive Resolved where
  /-- The mode's operand. -/
  | operand (o : Operand)
  /-- The operand fetch raised a fault (R97). -/
  | raises (f : FaultRecord)
  /-- The sentinel mode None, on which the resolver is never called (R104). -/
  | neverCalled
  deriving DecidableEq, Repr

/-- The operand made of the word at PC, or the fault of reading it (R97). -/
def resolveWord (opcAddr : Word) (s : State) (mk : Word → Operand) : Resolved :=
  match Memory.readWord s.mem s.pc with
  | some w => .operand (mk w)
  | none => .raises (.wordReadAtTop opcAddr)

/-- An indexed address with its page-cross marker (R98, R99, R100). -/
def indexedOperand (base : Word) (index : Byte) : Operand :=
  .addr (absoluteIndexedEa base index) (pageCrossed base (absoluteIndexedEa base index))

/-- `Resolve(mode)` (R90): `s.pc` is the address of the first operand byte and `opcAddr` that of
the opcode. It reads PC, X, Y and MEM and writes nothing. -/
def resolve (opcAddr : Word) (mode : AddressingMode) (s : State) : Resolved :=
  match mode with
  | .implied => .operand .noOperand
  | .accumulator => .operand .acc
  | .immediate => .operand (.lit (Memory.read s.mem s.pc))
  | .zeroPage => .operand (.addr (zeroPageEa (Memory.read s.mem s.pc)) false)
  | .zeroPageX => .operand (.addr (zeroPageIndexedEa (Memory.read s.mem s.pc) s.x) false)
  | .zeroPageY => .operand (.addr (zeroPageIndexedEa (Memory.read s.mem s.pc) s.y) false)
  | .relative => .operand (.target (relativeTarget s.pc (Memory.read s.mem s.pc)))
  | .absolute => resolveWord opcAddr s (fun w => .addr w false)
  | .absoluteX => resolveWord opcAddr s (fun w => indexedOperand w s.x)
  | .absoluteY => resolveWord opcAddr s (fun w => indexedOperand w s.y)
  | .indirectX => .operand (.addr (indirectXEa s.mem (Memory.read s.mem s.pc) s.x) false)
  | .indirectY => .operand (indexedOperand (pointerWord s.mem (Memory.read s.mem s.pc)) s.y)
  | .none => .neverCalled

/-- `Value(operand)` (R105); `none` where the spec defines no value and no handler asks for one. -/
def operandValue (s : State) : Operand → Option Byte
  | .noOperand => none
  | .acc => some s.a
  | .lit b => some b
  | .addr ea _ => some (Memory.read s.mem ea)
  | .target _ => none

end Sys2Proof.Machine
end

