-- ==== Sys2Proof/Machine/Load.lean ====
section
/-! DEFINITION. The meanings of the eight forms of LDA (spec/42_lda.md R110 to R118). `s.pc` is the
address of the opcode; PC advances by the instruction's length (spec/40_fetch_dispatch.md R75). -/

namespace Sys2Proof.Machine

/-- `ExecLDA` (R118) on the operand value `v`: A, then Z and N from it. -/
def loadA (v : Byte) (s : State) : State := { s with a := v, p := setZN s.p v }

/-- A load of the byte `v` by an instruction of `length` bytes. -/
def execLoad (length : Word) (v : Byte) (s : State) : Host.Outcome State Fault Refusal :=
  .next (advancePc length (loadA v s))

/-- A load from `ea` by an Absolute-family instruction: the operand word is read at PC + 1 of the
opcode, and when that is 0xFFFF the step raises `WordReadAtTop` instead (R97, R113, R152; D5,
log 6). The fault does not depend on the operand. -/
def execLoadAbsolute (ea : Word) (s : State) : Host.Outcome State Fault Refusal :=
  if (fetchAdvance s).pc = 0xFFFF#16 then .next (raise (.wordReadAtTop s.pc) (fetchAdvance s))
  else execLoad 3#16 (Memory.read s.mem ea) s

/-- LDA immediate (R110). -/
def execLdaImmediate (b : Byte) (s : State) : Host.Outcome State Fault Refusal :=
  execLoad 2#16 b s

/-- LDA zero page (R111). -/
def execLdaZeroPage (b : Byte) (s : State) : Host.Outcome State Fault Refusal :=
  execLoad 2#16 (Memory.read s.mem (zeroPageEa b)) s

/-- LDA zero page indexed by X (R112). -/
def execLdaZeroPageX (b : Byte) (s : State) : Host.Outcome State Fault Refusal :=
  execLoad 2#16 (Memory.read s.mem (zeroPageIndexedEa b s.x)) s

/-- LDA absolute (R113). -/
def execLdaAbsolute (w : Word) (s : State) : Host.Outcome State Fault Refusal :=
  execLoadAbsolute w s

/-- LDA absolute indexed by X (R114). -/
def execLdaAbsoluteX (w : Word) (s : State) : Host.Outcome State Fault Refusal :=
  execLoadAbsolute (absoluteIndexedEa w s.x) s

/-- LDA absolute indexed by Y (R115). -/
def execLdaAbsoluteY (w : Word) (s : State) : Host.Outcome State Fault Refusal :=
  execLoadAbsolute (absoluteIndexedEa w s.y) s

/-- LDA indexed indirect (R116). -/
def execLdaIndirectX (b : Byte) (s : State) : Host.Outcome State Fault Refusal :=
  execLoad 2#16 (Memory.read s.mem (indirectXEa s.mem b s.x)) s

/-- LDA indirect indexed (R117). -/
def execLdaIndirectY (b : Byte) (s : State) : Host.Outcome State Fault Refusal :=
  execLoad 2#16 (Memory.read s.mem (indirectYEa s.mem b s.y)) s

end Sys2Proof.Machine
end

