-- ==== Sys2Proof/Machine/System.lean ====
section
/-! DEFINITION. The meaning of BRK (spec/44_brk.md R140). -/

namespace Sys2Proof.Machine

/-- BRK: the fetch's advance of PC, and RUN becomes Halted; no flag, register or byte changes. -/
def execBrk (s : State) : Host.Outcome State Fault Refusal :=
  .next (halt (fetchAdvance s))

end Sys2Proof.Machine
end

