-- ==== Sys2Proof/Machine/Transfer.lean ====
section
/-! DEFINITION. The meanings of TAX and INX (spec/43_tax_inx.md R130, R131). -/

namespace Sys2Proof.Machine

/-- X written, then Z and N from the new X (R76). -/
def writeX (v : Byte) (s : State) : State := { s with x := v, p := setZN s.p v }

/-- TAX (R130). -/
def execTax (s : State) : Host.Outcome State Fault Refusal :=
  .next (advancePc 1#16 (writeX s.a s))

/-- INX (R131): the sum wraps modulo 256 (spec/40_fetch_dispatch.md R77). -/
def execInx (s : State) : Host.Outcome State Fault Refusal :=
  .next (advancePc 1#16 (writeX (s.x + 1#8) s))

end Sys2Proof.Machine
end

