-- ==== Sys2Proof/Machine/Dispatch.lean ====
section
/-! DEFINITION. The dispatcher (spec/40_fetch_dispatch.md R74): one arm per instruction. -/

namespace Sys2Proof.Machine

def exec (i : Instr) (s : State) : Host.Outcome State Fault Refusal :=
  match i with
  | .brk => Sys2Proof.Machine.execBrk s
  | .ldaIndirectX b => Sys2Proof.Machine.execLdaIndirectX b s
  | .ldaZeroPage b => Sys2Proof.Machine.execLdaZeroPage b s
  | .ldaImmediate b => Sys2Proof.Machine.execLdaImmediate b s
  | .tax => Sys2Proof.Machine.execTax s
  | .ldaAbsolute w => Sys2Proof.Machine.execLdaAbsolute w s
  | .ldaIndirectY b => Sys2Proof.Machine.execLdaIndirectY b s
  | .ldaZeroPageX b => Sys2Proof.Machine.execLdaZeroPageX b s
  | .ldaAbsoluteY w => Sys2Proof.Machine.execLdaAbsoluteY w s
  | .ldaAbsoluteX w => Sys2Proof.Machine.execLdaAbsoluteX w s
  | .inx => Sys2Proof.Machine.execInx s

end Sys2Proof.Machine
end

