-- ==== Sys2Proof/Machine/Step.lean ====
section
/-! DEFINITION. One step (spec/40_fetch_dispatch.md R71, R72, R74), and the state with a given
instruction placed where the next step fetches. -/

namespace Sys2Proof.Machine

/-- The step under a table profile. Bytes that are no instruction can only be an opcode with no
execution handler, since three bytes are fetched (R57, R74;
log 26). RUN is checked here, and `exec` does not look at it (log 23). -/
def stepUnder (prof : TableProfile) (s : State) : Host.Outcome State Fault Refusal :=
  match s.run with
  | .halted => .fault .coreHalted
  | .faulted => .fault .coreFaulted
  | .running =>
    match fetchInstr prof s with
    | .ok i => exec i s
    | .error _ => .next (raiseUnimplemented s)

/-- `Step()` under the configured profile. -/
def step (s : State) : Host.Outcome State Fault Refusal := stepUnder Config.tableProfile s

/-- `s` with the instruction whose table bits are `w` stored at PC, and a core that runs (log 19). -/
def State.withFetchWord (s : State) (nbits w : Nat) : State := placeAtPc (tableBytes nbits w) s

end Sys2Proof.Machine
end

