-- ==== Sys2Proof/Machine/Assembly.lean ====
section
/-! DEFINITION. The assembler text of an instruction (spec/30_encoding.md R59, R60). The bytes are
normative and the text is not (D16, log 22). -/

namespace Sys2Proof.Machine

/-- A hexadecimal digit, in capitals. -/
def hexDigit (n : Nat) : Char := if n < 10 then Char.ofNat (48 + n) else Char.ofNat (55 + n)

/-- The two digits of a byte. -/
def hexDigits (b : Byte) : List Char := [hexDigit (b.toNat / 16), hexDigit (b.toNat % 16)]

/-- A byte written `0xNN`. -/
def byteText (b : Byte) : List Char := ['0', 'x'] ++ hexDigits b

/-- A word written `0xNNNN`. -/
def wordText (w : Word) : List Char := ['0', 'x'] ++ hexDigits (hiByte w) ++ hexDigits (loByte w)

/-- The mnemonic's capitals (R59). -/
def mnemonicText : Mnemonic → List Char
  | .brk => ['B', 'R', 'K']
  | .lda => ['L', 'D', 'A']
  | .tax => ['T', 'A', 'X']
  | .inx => ['I', 'N', 'X']
  | .invalid => ['i', 'n', 'v', 'a', 'l', 'i', 'd']

/-- The operand as R59's table writes it, with the space before it; nothing for Implied. -/
def operandText : Instr → List Char
  | .brk => []
  | .ldaIndirectX b => [' ', '('] ++ byteText b ++ [',', 'X', ')']
  | .ldaZeroPage b => [' '] ++ byteText b
  | .ldaImmediate b => [' ', '#'] ++ byteText b
  | .tax => []
  | .ldaAbsolute w => [' '] ++ wordText w
  | .ldaIndirectY b => [' ', '('] ++ byteText b ++ [')', ',', 'Y']
  | .ldaZeroPageX b => [' '] ++ byteText b ++ [',', 'X']
  | .ldaAbsoluteY w => [' '] ++ wordText w ++ [',', 'Y']
  | .ldaAbsoluteX w => [' '] ++ wordText w ++ [',', 'X']
  | .inx => []

/-- The line of assembly that stands for an instruction. -/
def assemblyText (i : Instr) : List Char := mnemonicText i.mnemonic ++ operandText i

end Sys2Proof.Machine
end

