-- ==== Sys2Proof/Machine/Cycles.lean ====
section
/-! DEFINITION. The cycle cost of a step, the table's metadata (spec/70_reset_and_hazards.md R191,
R192). Nothing reads it: no register, flag, byte, fault or later step. The counts are UNVERIFIED
(D9, log 9). -/

namespace Sys2Proof.Machine

/-- The page-cross marker of a resolved operand (R100). DESIGN CHOICE: where the resolver raises
`WordReadAtTop` no word is read and the spec gives no marker; the model takes false (log 27). -/
def Resolved.crossed : Resolved → Bool
  | .operand (.addr _ c) => c
  | .operand .noOperand => false
  | .operand .acc => false
  | .operand (.lit _) => false
  | .operand (.target _) => false
  | .raises _ => false
  | .neverCalled => false

/-- The base cost of the opcode at PC, plus 1 when its entry pays for a page crossing and the
address crossed (R191). A step that raises `WordReadAtTop` costs the base cost (log 27). -/
def cycleCost (prof : TableProfile) (s : State) : Nat :=
  let entry := table prof (Memory.read s.mem s.pc)
  entry.cycles +
    (if entry.pageCrossPlusOne && (resolve s.pc entry.mode (fetchAdvance s)).crossed then 1 else 0)

end Sys2Proof.Machine
end

