-- ==== Sys2Proof/Machine/HostCalls.lean ====
section
/-! DEFINITION. The host's interface to the core (spec/70_reset_and_hazards.md R183 to R188): the
calls a host may make while the core is not inside `run`, and `run` itself
(spec/40_fetch_dispatch.md R73). The host makes no move during a run (D20, log 15). -/

namespace Sys2Proof.Machine

/-- The step repeated while RUN is Running, at most `n` times (the loop of R73). -/
def runFor : Nat → State → State
  | 0, s => s
  | n + 1, s =>
    match step s with
    | .next t => runFor n t
    | .fault _ => s
    | .refused _ => s

/-- A core as the host holds it: constructed, with a memory and no register values, until its
first reset (R183, R24; D10, log 10). -/
inductive Session where
  | constructed (mem : Memory)
  | live (s : State)
  deriving DecidableEq, Repr

/-- The calls of R188. `run fuel` asks for the run that ends within `fuel` steps (log 16). -/
inductive HostCall where
  | load (image : List Byte)
  | write (addr : Word) (v : Byte)
  | writeWord (addr : Word) (w : Word)
  | read (addr : Word)
  | readWord (addr : Word)
  | reset
  | run (fuel : Nat)
  | inspect
  deriving DecidableEq, Repr

/-- Why a host call is refused; no refused call has any effect. -/
inductive HostError where
  /-- `load` of more than 0x8000 bytes (spec/60_exceptions.md R153). -/
  | outOfBoundsLoad (length : Nat)
  /-- `read_word` or `write_word` at 0xFFFF (R187; D5). -/
  | wordAccessAtTop
  /-- `run` on a core that is not Running, or before the first reset (R188; D18). -/
  | runRefused
  /-- An inspection before the first reset: the registers hold no value (R24; D10). -/
  | noRegisters
  deriving DecidableEq, Repr

/-- What a host call returns. -/
inductive HostReply where
  /-- A call with nothing to return. -/
  | done
  | byte (v : Byte)
  | word (w : Word)
  /-- A, X, Y, P and PC (R187). -/
  | registers (a x y p : Byte) (pc : Word)
  /-- `run` returned Ok: the core halted (R73). -/
  | runOk
  /-- `run` returned Err(FAULT) (R73). -/
  | runErr (f : Option FaultRecord)
  /-- The run does not end within the fuel: no call of `run` returned, and nothing is said of it. -/
  | runUnfinished
  | error (e : HostError)
  deriving DecidableEq, Repr

/-- The memory the core owns. -/
def sessionMem : Session → Memory
  | .constructed m => m
  | .live s => s.mem

/-- A host write reaches memory and nothing else (R34, R186). -/
def withSessionMem (m : Memory) : Session → Session
  | .constructed _ => .constructed m
  | .live s => .live { s with mem := m }

/-- `load` (R186, R153). -/
def hostLoad (image : List Byte) (c : Session) : HostReply × Session :=
  match loadImage image (sessionMem c) with
  | some m => (.done, withSessionMem m c)
  | none => (.error (.outOfBoundsLoad image.length), c)

/-- `write_word` (R34, R187). -/
def hostWriteWord (addr w : Word) (c : Session) : HostReply × Session :=
  match Memory.writeWord (sessionMem c) addr w with
  | some m => (.done, withSessionMem m c)
  | none => (.error .wordAccessAtTop, c)

/-- `read_word` (R32, R187). -/
def hostReadWord (addr : Word) (c : Session) : HostReply × Session :=
  match Memory.readWord (sessionMem c) addr with
  | some w => (.word w, c)
  | none => (.error .wordAccessAtTop, c)

/-- `run` on a core that has been reset (R73, R188). -/
def hostRunLive (fuel : Nat) (s : State) : HostReply × Session :=
  match s.run with
  | .halted => (.error .runRefused, .live s)
  | .faulted => (.error .runRefused, .live s)
  | .running =>
    match (runFor fuel s).run with
    | .running => (.runUnfinished, .live s)
    | .halted => (.runOk, .live (runFor fuel s))
    | .faulted => (.runErr (runFor fuel s).fault, .live (runFor fuel s))

/-- `run` (R73, R188). -/
def hostRun (fuel : Nat) : Session → HostReply × Session
  | .constructed m => (.error .runRefused, .constructed m)
  | .live s => hostRunLive fuel s

/-- The inspection of the registers (R187). -/
def hostInspect : Session → HostReply × Session
  | .constructed m => (.error .noRegisters, .constructed m)
  | .live s => (.registers s.a s.x s.y s.p s.pc, .live s)

/-- A new core: memory all zero, no register values (R183). -/
def construct : Session := .constructed []

/-- One call of the host (R188). -/
def hostCall (call : HostCall) (c : Session) : HostReply × Session :=
  match call with
  | .load image => hostLoad image c
  | .write addr v => (.done, withSessionMem (Memory.write (sessionMem c) addr v) c)
  | .writeWord addr w => hostWriteWord addr w c
  | .read addr => (.byte (Memory.read (sessionMem c) addr), c)
  | .readWord addr => hostReadWord addr c
  | .reset => (.done, .live (launch (sessionMem c)))
  | .run fuel => hostRun fuel c
  | .inspect => hostInspect c

end Sys2Proof.Machine
end

