-- ==== Sys2Proof/Machine/Pseudocode.lean ====
section
/-! DEFINITION. The spec's `Step()` (spec/40_fetch_dispatch.md R74) as it stands there: fetch, table
lookup, `Resolve` reading the operand bytes at PC, execute, PC advance by the entry's length. `step`
decodes first and executes a decoded instruction; that the two agree is a statement of
Certificates/Slice0. -/

namespace Sys2Proof.Machine

/-- The LDA arm of R74: the resolver's fault, or `ExecLDA` and the PC advance. A mode without a
value has no LDA handler (R57, R105). -/
def pseudoLda (op : Byte) (opcAddr : Word) (length : Word) (s : State) : Resolved → State
  | .raises f => raise f s
  | .neverCalled => raise (.unimplementedOpcode op opcAddr) s
  | .operand o =>
    match operandValue s o with
    | some v => { loadA v s with pc := opcAddr + length }
    | none => raise (.unimplementedOpcode op opcAddr) s

/-- `Step()` (R74) from a Running state. -/
def pseudoStep (prof : TableProfile) (s : State) : State :=
  let opcAddr := s.pc
  let op := Memory.read s.mem s.pc
  let s1 := fetchAdvance s
  let entry := table prof op
  let length := BitVec.ofNat 16 entry.length
  match entry.mnemonic with
  | .invalid => raise (.unimplementedOpcode op opcAddr) s1
  | .brk => halt s1
  | .lda => pseudoLda op opcAddr length s1 (resolve opcAddr entry.mode s1)
  | .tax => { writeX s1.a s1 with pc := opcAddr + length }
  | .inx => { writeX (s1.x + 1#8) s1 with pc := opcAddr + length }

end Sys2Proof.Machine
end

