-- ==== Sys2Proof/Machine/Reads.lean ====
section
/-! DEFINITION. The addresses a step reads, in the order the spec fixes (spec/20_memory.md R36, R44;
D19, log 14): opcode, operand bytes, pointer bytes, data byte. The order cannot be observed, since no
read has a side effect; the list is an output of a step that nothing reads. -/

namespace Sys2Proof.Machine

/-- The operand bytes a mode reads from `addr` on; none when the word read there raises
`WordReadAtTop` (R36, R32; spec/60_exceptions.md R152). -/
def operandReads (mode : AddressingMode) (addr : Word) : List Word :=
  match mode with
  | .implied => []
  | .accumulator => []
  | .none => []
  | .immediate => [addr]
  | .zeroPage => [addr]
  | .zeroPageX => [addr]
  | .zeroPageY => [addr]
  | .relative => [addr]
  | .indirectX => [addr]
  | .indirectY => [addr]
  | .absolute => if addr = 0xFFFF#16 then [] else [addr, addr + 1#16]
  | .absoluteX => if addr = 0xFFFF#16 then [] else [addr, addr + 1#16]
  | .absoluteY => if addr = 0xFFFF#16 then [] else [addr, addr + 1#16]

/-- The two bytes of a zero-page pointer (R36, R102, R103). -/
def pointerReads (ptr : Byte) : List Word := [zext16 ptr, zext16 ptr + 1#16]

/-- The pointer bytes a mode reads, from the state after the fetch (R36). -/
def pointerReadsOf (mode : AddressingMode) (s : State) : List Word :=
  match mode with
  | .indirectX => pointerReads (Memory.read s.mem s.pc + s.x)
  | .indirectY => pointerReads (Memory.read s.mem s.pc)
  | .implied => []
  | .accumulator => []
  | .none => []
  | .immediate => []
  | .zeroPage => []
  | .zeroPageX => []
  | .zeroPageY => []
  | .relative => []
  | .absolute => []
  | .absoluteX => []
  | .absoluteY => []

/-- The data byte of a resolved operand (R105). -/
def dataReads : Resolved → List Word
  | .operand (.addr ea _) => [ea]
  | .operand .noOperand => []
  | .operand .acc => []
  | .operand (.lit _) => []
  | .operand (.target _) => []
  | .raises _ => []
  | .neverCalled => []

/-- Every address a step from `s` reads, in order (R36, R44). -/
def stepReads (prof : TableProfile) (s : State) : List Word :=
  let mode := (table prof (Memory.read s.mem s.pc)).mode
  s.pc :: (operandReads mode (fetchAdvance s).pc ++
    (pointerReadsOf mode (fetchAdvance s) ++ dataReads (resolve s.pc mode (fetchAdvance s))))

end Sys2Proof.Machine
end

