-- ==== Sys2Proof/Safety.lean ====
section
/-! DEFINITION. The terms claims are stated in: what a step may have changed, the entry of a fault,
the invariant of reachable states, and safe runs. -/

namespace Sys2Proof.Machine

/-- Every byte of memory reads as before. -/
def SameBytes (s t : State) : Prop :=
  ∀ addr : Word, Memory.read t.mem addr = Memory.read s.mem addr

/-- `p'` is `p` with Z and N as the result `v` gives them, and no other bit changed
(spec/40_fetch_dispatch.md R76). -/
def FlagsFrom (p p' v : Byte) : Prop :=
  (zFlag p' = true ↔ v = 0x00#8) ∧ (nFlag p' = true ↔ 128 ≤ v.toNat) ∧
    reservedBits p' = reservedBits p

/-- PC moved on by `n` modulo 65536 (R75; the wrap is the spec's decision D4, log 5). -/
def PcMoved (s t : State) (n : Nat) : Prop := t.pc.toNat = (s.pc.toNat + n) % 65536

/-- `t` is `s` after a load of `v` by an instruction of `n` bytes: A, Z, N and PC, and nothing
else (spec/42_lda.md R118). -/
def LoadedA (s t : State) (v : Byte) (n : Nat) : Prop :=
  t.a = v ∧ FlagsFrom s.p t.p v ∧ PcMoved s t n ∧
    t.x = s.x ∧ t.y = s.y ∧ t.run = s.run ∧ t.fault = s.fault ∧ SameBytes s t

/-- `t` is `s` after a one-byte instruction that wrote `v` to X: X, Z, N and PC, and nothing else
(spec/43_tax_inx.md R130, R131). -/
def WroteX (s t : State) (v : Byte) : Prop :=
  t.x = v ∧ FlagsFrom s.p t.p v ∧ PcMoved s t 1 ∧
    t.a = s.a ∧ t.y = s.y ∧ t.run = s.run ∧ t.fault = s.fault ∧ SameBytes s t

/-- `t` is `s` after a step that raised `f`: FAULT and RUN, PC one past the opcode, and nothing
else (spec/60_exceptions.md R157). -/
def FaultTaken (s t : State) (f : FaultRecord) : Prop :=
  t.fault = some f ∧ t.run = .faulted ∧ PcMoved s t 1 ∧
    t.a = s.a ∧ t.x = s.x ∧ t.y = s.y ∧ t.p = s.p ∧ SameBytes s t

/-- The number the little-endian word at address `n` stands for (spec/20_memory.md R33). -/
def wordAt (m : Memory) (n : Nat) : Nat :=
  256 * (Memory.readAt m (n + 1)).toNat + (Memory.readAt m n).toNat

/-- The instruction reads an operand word: the Absolute family (spec/41_addressing_modes.md R97 to
R99). -/
def readsOperandWord (i : Instr) : Bool :=
  i.mode == .absolute || i.mode == .absoluteX || i.mode == .absoluteY

/-- The operand each form of LDA works on (R92 to R103); the other instructions have none. -/
def ldaOperand (i : Instr) (s : State) : Operand :=
  match i with
  | .brk => .noOperand
  | .ldaIndirectX b => .addr (indirectXEa s.mem b s.x) false
  | .ldaZeroPage b => .addr (zeroPageEa b) false
  | .ldaImmediate b => .lit b
  | .tax => .noOperand
  | .ldaAbsolute w => .addr w false
  | .ldaIndirectY b => indexedOperand (pointerWord s.mem b) s.y
  | .ldaZeroPageX b => .addr (zeroPageIndexedEa b s.x) false
  | .ldaAbsoluteY w => indexedOperand w s.y
  | .ldaAbsoluteX w => indexedOperand w s.x
  | .inx => .noOperand

/-- The opcode bytes that MINIMAL assigns: the ones the spec's source shows (R55). -/
def sourceOpcodes : List Byte := [0x00#8, 0xA9#8, 0xAA#8, 0xE8#8]

/-- The opcode bytes of LDA's seven memory forms, which only GENERAL assigns (R54, R55; D1). -/
def memoryLoadOpcodes : List Byte :=
  [0xA1#8, 0xA5#8, 0xAD#8, 0xB1#8, 0xB5#8, 0xB9#8, 0xBD#8]

/-- The opcode bytes of the Absolute family (R97 to R99). -/
def absoluteOpcodes : List Byte := [0xAD#8, 0xB9#8, 0xBD#8]

/-- The opcode at PC is unassigned under GENERAL (R56). -/
def unassignedAtPc (s : State) : Prop :=
  Memory.readAt s.mem s.pc.toNat ∉ sourceOpcodes ∧
    Memory.readAt s.mem s.pc.toNat ∉ memoryLoadOpcodes

/-- What holds of every state reachable from a reset: memory is canonical, Y is 0x00 (spec/10_state.md
R12), the reserved bits of P are 0 (R16), Z and N are not both 1 (R76), and RUN is Faulted exactly
when FAULT is not none (R19). -/
abbrev StateInv (s : State) : Prop :=
  Memory.wf s.mem = true ∧ s.y = 0x00#8 ∧ reservedBits s.p = 0x00#8 ∧
    ¬ (zFlag s.p = true ∧ nFlag s.p = true) ∧ (s.run = .faulted ↔ s.fault ≠ none)

/-- The invariant of a core as the host holds it. -/
abbrev SessionInv : Session → Prop
  | .constructed m => Memory.wf m = true
  | .live s => StateInv s

/-- A safe run: within `n` steps the core has not faulted (a claim about a program holds only under
this, R73). -/
def SafeRun (n : Nat) (s : State) : Prop := (runFor n s).run ≠ .faulted

end Sys2Proof.Machine
end

