-- ==== Sys2Proof/Certificates/Slice0/Obligations.lean ====
section
/-! DEFINITION. The statements for the provers. "log n" is notes/assumptions/n.md; "D n" is a
decision of spec/92_eei_decisions.md, the spec's own choice where its source is silent. Addresses
and sums are written as natural numbers modulo 256 or 65536, not with the model's own address
functions. -/

open Sys2Proof Sys2Proof.Machine

/-! ## Memory -/

/-- 20_memory.md section 2 (R31, R34): a byte write is seen at its address and nowhere else. -/
def Obligations.WriteThenReadByte : Prop :=
  ∀ (m : Memory) (a b : Word) (v : Byte),
    Memory.read (Memory.write m a v) b = if b = a then v else Memory.read m b

/-- log 20 (a choice of the model): two canonical memories with the same bytes are equal data. -/
def Obligations.CanonicalMemoryIsDeterminedByItsBytes : Prop :=
  ∀ m m' : Memory, Memory.wf m = true → Memory.wf m' = true →
    (∀ a : Word, Memory.read m a = Memory.read m' a) → m = m'

/-- 20_memory.md section 2 (R32, R33): the word at every address but 0xFFFF is little-endian; the
read at 0xFFFF has no value (D5, log 6). -/
def Obligations.WordReadIsLittleEndian : Prop :=
  ∀ (m : Memory) (a : Word),
    (a = 0xFFFF#16 → Memory.readWord m a = none) ∧
    (a ≠ 0xFFFF#16 → ∃ w, Memory.readWord m a = some w ∧ w.toNat = wordAt m a.toNat)

/-- 20_memory.md section 2, 70_reset_and_hazards.md section 2 (R34, R187): the host's word write is
read back and changes its two bytes only; at 0xFFFF both calls are refused (D5, log 6). -/
def Obligations.HostWordWriteThenRead : Prop :=
  ∀ (c : Session) (a w : Word),
    (a = 0xFFFF#16 → hostCall (.writeWord a w) c = (.error .wordAccessAtTop, c) ∧
      hostCall (.readWord a) c = (.error .wordAccessAtTop, c)) ∧
    (a ≠ 0xFFFF#16 → ∃ c', hostCall (.writeWord a w) c = (.done, c') ∧
      hostCall (.readWord a) c' = (.word w, c') ∧
      (Memory.readAt (sessionMem c') a.toNat).toNat = w.toNat % 256 ∧
      (Memory.readAt (sessionMem c') (a.toNat + 1)).toNat = w.toNat / 256 ∧
      ∀ n, n ≠ a.toNat → n ≠ a.toNat + 1 →
        Memory.readAt (sessionMem c') n = Memory.readAt (sessionMem c) n)

/-! ## Flags -/

/-- 40_fetch_dispatch.md section 3 (R76): `setZN` is the spec's one expression, writes bits 1 and 7
only and, as the spec derives, never sets both flags; LDA, TAX and INX apply it to their result, BRK
and the faults do not. That an Absolute-family form whose opcode is at 0xFFFE faults instead of
loading, and so leaves P, is D5 (log 6; 60_exceptions.md section 1, R152). -/
def Obligations.FlagUpdateIsMasked : Prop :=
  (∀ p v : Byte,
    setZN p v = (p &&& 0x7D#8) ||| (if v = 0x00#8 then 0x02#8 else 0x00#8) ||| (v &&& 0x80#8) ∧
    FlagsFrom p (setZN p v) v ∧ ¬ (zFlag (setZN p v) = true ∧ nFlag (setZN p v) = true)) ∧
  ∀ (i : Instr) (s t : State), exec i s = .next t →
    (i.mnemonic = .lda → (readsOperandWord i = true → s.pc ≠ 0xFFFE#16) → t.p = setZN s.p t.a) ∧
    (i = .tax ∨ i = .inx → t.p = setZN s.p t.x) ∧
    (i = .brk → t.p = s.p) ∧
    (readsOperandWord i = true → s.pc = 0xFFFE#16 → t.p = s.p) ∧
    (raiseUnimplemented s).p = s.p

/-! ## Results: where each instruction completes -/

/-- R110. -/
def Obligations.LdaImmediateResult : Prop :=
  ∀ (b : Byte) (s : State), encode (.ldaImmediate b) = [0xA9#8, b] ∧
    ∃ t, exec (.ldaImmediate b) s = .next t ∧ LoadedA s t b 2

/-- 42_lda.md (R111); the opcode value is the spec's decision D1 (log 3). -/
def Obligations.LdaZeroPageResult : Prop :=
  ∀ (b : Byte) (s : State), encode (.ldaZeroPage b) = [0xA5#8, b] ∧
    ∃ t, exec (.ldaZeroPage b) s = .next t ∧ LoadedA s t (Memory.readAt s.mem b.toNat) 2

/-- 42_lda.md (R112): the address sum wraps inside page 0; the opcode value is D1 (log 3). -/
def Obligations.LdaZeroPageXResult : Prop :=
  ∀ (b : Byte) (s : State), encode (.ldaZeroPageX b) = [0xB5#8, b] ∧
    ∃ t, exec (.ldaZeroPageX b) s = .next t ∧
      LoadedA s t (Memory.readAt s.mem ((b.toNat + s.x.toNat) % 256)) 2

/-- 42_lda.md (R113): the load, and the fault of an opcode at 0xFFFE (D5, log 6); the opcode value
is D1 (log 3). -/
def Obligations.LdaAbsoluteResult : Prop :=
  ∀ (hi lo : Byte) (s : State), encode (.ldaAbsolute (mkWord hi lo)) = [0xAD#8, lo, hi] ∧
    (s.pc ≠ 0xFFFE#16 → ∃ t, exec (.ldaAbsolute (mkWord hi lo)) s = .next t ∧
      LoadedA s t (Memory.readAt s.mem (256 * hi.toNat + lo.toNat)) 3) ∧
    (s.pc = 0xFFFE#16 → ∃ t, exec (.ldaAbsolute (mkWord hi lo)) s = .next t ∧
      FaultTaken s t (.wordReadAtTop 0xFFFE#16))

/-- 42_lda.md (R114): the address sum wraps modulo 65536; D1, D5 as above (logs 3, 6). -/
def Obligations.LdaAbsoluteXResult : Prop :=
  ∀ (hi lo : Byte) (s : State), encode (.ldaAbsoluteX (mkWord hi lo)) = [0xBD#8, lo, hi] ∧
    (s.pc ≠ 0xFFFE#16 → ∃ t, exec (.ldaAbsoluteX (mkWord hi lo)) s = .next t ∧
      LoadedA s t (Memory.readAt s.mem ((256 * hi.toNat + lo.toNat + s.x.toNat) % 65536)) 3) ∧
    (s.pc = 0xFFFE#16 → ∃ t, exec (.ldaAbsoluteX (mkWord hi lo)) s = .next t ∧
      FaultTaken s t (.wordReadAtTop 0xFFFE#16))

/-- 42_lda.md (R115): as R114 with Y; D1, D5 as above (logs 3, 6). -/
def Obligations.LdaAbsoluteYResult : Prop :=
  ∀ (hi lo : Byte) (s : State), encode (.ldaAbsoluteY (mkWord hi lo)) = [0xB9#8, lo, hi] ∧
    (s.pc ≠ 0xFFFE#16 → ∃ t, exec (.ldaAbsoluteY (mkWord hi lo)) s = .next t ∧
      LoadedA s t (Memory.readAt s.mem ((256 * hi.toNat + lo.toNat + s.y.toNat) % 65536)) 3) ∧
    (s.pc = 0xFFFE#16 → ∃ t, exec (.ldaAbsoluteY (mkWord hi lo)) s = .next t ∧
      FaultTaken s t (.wordReadAtTop 0xFFFE#16))

/-- 42_lda.md (R116): the pointer at 0x00FF has its high byte at 0x0100 (D6, log 7); the opcode
value is D1 (log 3). -/
def Obligations.LdaIndirectXResult : Prop :=
  ∀ (b : Byte) (s : State), encode (.ldaIndirectX b) = [0xA1#8, b] ∧
    ∃ t, exec (.ldaIndirectX b) s = .next t ∧
      LoadedA s t (Memory.readAt s.mem (wordAt s.mem ((b.toNat + s.x.toNat) % 256))) 2

/-- 42_lda.md (R117): Y is added to the pointer's word modulo 65536; D1, D6 as above. -/
def Obligations.LdaIndirectYResult : Prop :=
  ∀ (b : Byte) (s : State), encode (.ldaIndirectY b) = [0xB1#8, b] ∧
    ∃ t, exec (.ldaIndirectY b) s = .next t ∧
      LoadedA s t (Memory.readAt s.mem ((wordAt s.mem b.toNat + s.y.toNat) % 65536)) 2

/-- R118: every form of LDA puts its operand's value in A, sets Z and N from it, writes nothing
else but PC, and does not depend on the old A or P. -/
def Obligations.EveryLoadIsExecLda : Prop :=
  ∀ (i : Instr) (s : State), i.mnemonic = .lda →
    (readsOperandWord i = true → s.pc ≠ 0xFFFE#16) →
    ∃ t, exec i s = .next t ∧ operandValue s (ldaOperand i s) = some t.a ∧
      LoadedA s t t.a (encode i).length ∧
      ∀ a p : Byte, ∃ t', exec i { s with a := a, p := p } = .next t' ∧
        LoadedA { s with a := a, p := p } t' t.a (encode i).length

/-- R130. -/
def Obligations.TaxResult : Prop :=
  ∀ s : State, encode .tax = [0xAA#8] ∧ ∃ t, exec .tax s = .next t ∧ WroteX s t s.a

/-- R131: the sum wraps modulo 256; Z exactly from 0xFF, N exactly from 0x7F to 0xFE. -/
def Obligations.InxResult : Prop :=
  ∀ s : State, encode .inx = [0xE8#8] ∧ ∃ t, exec .inx s = .next t ∧ WroteX s t t.x ∧
    t.x.toNat = (s.x.toNat + 1) % 256 ∧ (zFlag t.p = true ↔ s.x = 0xFF#8) ∧
    (nFlag t.p = true ↔ 0x7F ≤ s.x.toNat ∧ s.x.toNat ≤ 0xFE)

/-- R140: RUN becomes Halted and PC moves one on; nothing else changes, and there is no further
step. -/
def Obligations.BrkResult : Prop :=
  ∀ s : State, encode .brk = [0x00#8] ∧ ∃ t, exec .brk s = .next t ∧ t.run = .halted ∧
    PcMoved s t 1 ∧ t.a = s.a ∧ t.x = s.x ∧ t.y = s.y ∧ t.p = s.p ∧ t.fault = s.fault ∧
    SameBytes s t ∧ ∀ u, step t ≠ .next u

/-! ## Frames -/

/-- 42_lda.md, 60_exceptions.md section 3: what every form of LDA leaves unchanged, whether it
loads or raises WordReadAtTop (D3, D5; logs 4, 6). No form stores. -/
def Obligations.LoadFrame : Prop :=
  ∀ (i : Instr) (s t : State), i.mnemonic = .lda → exec i s = .next t →
    t.x = s.x ∧ t.y = s.y ∧ reservedBits t.p = reservedBits s.p ∧
    (∀ a : Word, Memory.read t.mem a = Memory.read s.mem a) ∧
    (t.run = s.run ∧ t.fault = s.fault ∨
      readsOperandWord i = true ∧ s.pc = 0xFFFE#16 ∧ t.a = s.a ∧ t.p = s.p)

/-- 43_tax_inx.md: what TAX and INX leave unchanged. Neither stores. -/
def Obligations.TransferFrame : Prop :=
  ∀ (i : Instr) (s t : State), i = .tax ∨ i = .inx → exec i s = .next t →
    t.a = s.a ∧ t.y = s.y ∧ reservedBits t.p = reservedBits s.p ∧ t.run = s.run ∧
    t.fault = s.fault ∧ ∀ a : Word, Memory.read t.mem a = Memory.read s.mem a

/-- 44_brk.md: what BRK leaves unchanged, in the state it ran in and in every later one, since a
run from it goes nowhere. -/
def Obligations.BreakFrame : Prop :=
  ∀ (n : Nat) (s t : State), exec .brk s = .next t →
    (runFor n t).a = s.a ∧ (runFor n t).x = s.x ∧ (runFor n t).y = s.y ∧
    (runFor n t).p = s.p ∧ (runFor n t).fault = s.fault ∧ (runFor n t).run = .halted ∧
    PcMoved s (runFor n t) 1 ∧
    ∀ a : Word, Memory.read (runFor n t).mem a = Memory.read s.mem a

/-! ## Encoding -/

/-- 30_encoding.md: decoding the bytes of an instruction of the profile gives it back, with every
operand at every value, whatever follows. -/
def Obligations.DecodeOfEncode : Prop :=
  ∀ (prof : TableProfile) (i : Instr) (rest : List Byte), i.wellFormed prof = true →
    decode prof (encode i ++ rest) = .ok (i, rest)

/-- 30_encoding.md: bytes that decode are the encoding of what they decode to, an instruction of
the profile. -/
def Obligations.EncodeOfDecode : Prop :=
  ∀ (prof : TableProfile) (bytes rest : List Byte) (i : Instr),
    decode prof bytes = .ok (i, rest) → bytes = encode i ++ rest ∧ i.wellFormed prof = true

/-- 30_encoding.md section 4 (R56): exactly the listed values are unassigned, 245 under GENERAL and
252 under MINIMAL (D1, log 3). -/
def Obligations.UnassignedOpcodesAreRefused : Prop :=
  ∀ (op : Byte) (rest : List Byte),
    (decode .general (op :: rest) = .error (.unassigned op) ↔
      (0x01 ≤ op.toNat ∧ op.toNat ≤ 0xA0) ∨ (0xA2 ≤ op.toNat ∧ op.toNat ≤ 0xA4) ∨
      (0xA6 ≤ op.toNat ∧ op.toNat ≤ 0xA8) ∨ op.toNat = 0xAB ∨ op.toNat = 0xAC ∨
      (0xAE ≤ op.toNat ∧ op.toNat ≤ 0xB0) ∨ (0xB2 ≤ op.toNat ∧ op.toNat ≤ 0xB4) ∨
      (0xB6 ≤ op.toNat ∧ op.toNat ≤ 0xB8) ∨ (0xBA ≤ op.toNat ∧ op.toNat ≤ 0xBC) ∨
      (0xBE ≤ op.toNat ∧ op.toNat ≤ 0xE7) ∨ 0xE9 ≤ op.toNat) ∧
    (decode .minimal (op :: rest) = .error (.unassigned op) ↔
      (0x01 ≤ op.toNat ∧ op.toNat ≤ 0xA8) ∨ (0xAB ≤ op.toNat ∧ op.toNat ≤ 0xE7) ∨
      0xE9 ≤ op.toNat)

/-- 30_encoding.md sections 1 and 5 (R52, R58): decoding takes as many bytes as the entry of the
first byte says, 1, 2 or 3. -/
def Obligations.LengthComesFromTheOpcodeAlone : Prop :=
  ∀ (prof : TableProfile) (op : Byte) (tail rest : List Byte) (i : Instr),
    decode prof (op :: tail) = .ok (i, rest) →
    (op :: tail).length = (table prof op).length + rest.length ∧
    1 ≤ (table prof op).length ∧ (table prof op).length ≤ 3

/-- 30_encoding.md (R54, R59): words written out from the opcode map, one of every form. -/
def Obligations.SampleWordsDecode : Prop :=
  decode .general [0x00#8] = .ok (.brk, []) ∧
  decode .general [0xA9#8, 0x45#8, 0x00#8] = .ok (.ldaImmediate 0x45#8, [0x00#8]) ∧
  decode .general [0xAD#8, 0x34#8, 0x12#8] = .ok (.ldaAbsolute 0x1234#16, []) ∧
  decode .general [0xB1#8, 0xF0#8] = .ok (.ldaIndirectY 0xF0#8, []) ∧
  decode .general [0xAA#8, 0xE8#8] = .ok (.tax, [0xE8#8]) ∧
  decode .general [0xE8#8] = .ok (.inx, []) ∧
  decode .general [0xEA#8] = .error (.unassigned 0xEA#8)

/-! ## The resolver -/

/-- 41_addressing_modes.md sections 2 and 3 (R93 to R96): the literal and the page-0 modes, whose
address never leaves page 0 and never crosses. -/
def Obligations.ResolverPageZeroModes : Prop :=
  ∀ (opcAddr : Word) (s : State),
    (∃ b, resolve opcAddr .immediate s = .operand (.lit b) ∧
      b = Memory.readAt s.mem s.pc.toNat) ∧
    (∃ ea, resolve opcAddr .zeroPage s = .operand (.addr ea false) ∧
      ea.toNat = (Memory.readAt s.mem s.pc.toNat).toNat) ∧
    (∃ ea, resolve opcAddr .zeroPageX s = .operand (.addr ea false) ∧
      ea.toNat = ((Memory.readAt s.mem s.pc.toNat).toNat + s.x.toNat) % 256) ∧
    (∃ ea, resolve opcAddr .zeroPageY s = .operand (.addr ea false) ∧
      ea.toNat = ((Memory.readAt s.mem s.pc.toNat).toNat + s.y.toNat) % 256)

/-- 41_addressing_modes.md sections 3 and 4 (R97 to R100): the Absolute family's address and
page-cross marker, and its fault when the operand word is at 0xFFFF (D5, log 6). -/
def Obligations.ResolverAbsoluteModes : Prop :=
  ∀ (opcAddr : Word) (s : State),
    (s.pc = 0xFFFF#16 →
      resolve opcAddr .absolute s = .raises (.wordReadAtTop opcAddr) ∧
      resolve opcAddr .absoluteX s = .raises (.wordReadAtTop opcAddr) ∧
      resolve opcAddr .absoluteY s = .raises (.wordReadAtTop opcAddr)) ∧
    (s.pc ≠ 0xFFFF#16 → ∃ ea eaX eaY : Word, ∃ cX cY : Bool,
      resolve opcAddr .absolute s = .operand (.addr ea false) ∧
      resolve opcAddr .absoluteX s = .operand (.addr eaX cX) ∧
      resolve opcAddr .absoluteY s = .operand (.addr eaY cY) ∧
      ea.toNat = wordAt s.mem s.pc.toNat ∧
      eaX.toNat = (ea.toNat + s.x.toNat) % 65536 ∧ (cX = true ↔ eaX.toNat / 256 ≠ ea.toNat / 256) ∧
      eaY.toNat = (ea.toNat + s.y.toNat) % 65536 ∧ (cY = true ↔ eaY.toNat / 256 ≠ ea.toNat / 256))

/-- 41_addressing_modes.md section 6 (R102, R103): the indirect modes never raise; the pointer at
0x00FF has its high byte at 0x0100 (D6, log 7). -/
def Obligations.ResolverIndirectModes : Prop :=
  ∀ (opcAddr : Word) (s : State), ∃ eaX base eaY : Word, ∃ c : Bool,
    resolve opcAddr .indirectX s = .operand (.addr eaX false) ∧
    eaX.toNat =
      wordAt s.mem (((Memory.readAt s.mem s.pc.toNat).toNat + s.x.toNat) % 256) ∧
    base.toNat = wordAt s.mem (Memory.readAt s.mem s.pc.toNat).toNat ∧
    resolve opcAddr .indirectY s = .operand (.addr eaY c) ∧
    eaY.toNat = (base.toNat + s.y.toNat) % 65536 ∧
    (c = true ↔ eaY.toNat / 256 ≠ base.toNat / 256)

/-- 41_addressing_modes.md section 5 (R101): the offset is signed and counts from the address
after the operand byte; the wrap is D7 (log 8). -/
def Obligations.ResolverRelativeMode : Prop :=
  ∀ (opcAddr : Word) (s : State), ∃ t : Word,
    resolve opcAddr .relative s = .operand (.target t) ∧
    (t.toNat : Int) =
      ((s.pc.toNat : Int) + 1 + (Memory.readAt s.mem s.pc.toNat).toInt) % 65536

/-- 41_addressing_modes.md section 4, 70_reset_and_hazards.md section 4 (R100, R191, R192): one
cycle more exactly when the index changes the page, for the three forms that pay it. The counts are
D9 (log 9). -/
def Obligations.PageCrossCost : Prop :=
  ∀ s : State,
    (Memory.readAt s.mem s.pc.toNat = 0xBD#8 → s.pc ≠ 0xFFFE#16 → ∀ w : Nat,
      w = wordAt s.mem ((s.pc.toNat + 1) % 65536) →
      cycleCost .general s =
        if (w + s.x.toNat) % 65536 / 256 = w / 256 then 4 else 5) ∧
    (Memory.readAt s.mem s.pc.toNat = 0xB9#8 → s.pc ≠ 0xFFFE#16 → ∀ w : Nat,
      w = wordAt s.mem ((s.pc.toNat + 1) % 65536) →
      cycleCost .general s =
        if (w + s.y.toNat) % 65536 / 256 = w / 256 then 4 else 5) ∧
    (Memory.readAt s.mem s.pc.toNat = 0xB1#8 → ∀ w : Nat,
      w = wordAt s.mem (Memory.readAt s.mem ((s.pc.toNat + 1) % 65536)).toNat →
      cycleCost .general s =
        if (w + s.y.toNat) % 65536 / 256 = w / 256 then 5 else 6)

/-! ## The step -/

/-- 40_fetch_dispatch.md section 2 (R72, R74): a Running core runs what the bytes at PC decode to;
`exec` itself moves PC past the instruction. -/
def Obligations.StepRunsDecodedInstruction : Prop :=
  ∀ (s : State) (i : Instr) (rest : List Byte), s.run = .running →
    decode Config.tableProfile (fetchBytes s) = .ok (i, rest) → step s = exec i s

/-- 30_encoding.md section 1, 40_fetch_dispatch.md section 2 (R50, R72, R74): an instruction whose
bytes stand at PC and up, modulo 65536 (D4, log 5), is the one that runs. -/
def Obligations.StepRunsTheBytesAtPc : Prop :=
  ∀ (s : State) (i : Instr), s.run = .running →
    (∀ (k : Nat) (v : Byte), (encode i)[k]? = some v →
      Memory.readAt s.mem ((s.pc.toNat + k) % 65536) = v) →
    step s = exec i s

/-- 60_exceptions.md section 1 (R151): an unassigned opcode raises UnimplementedOpcode with the
opcode and its address (D3, log 4). -/
def Obligations.UnassignedOpcodeFaults : Prop :=
  ∀ s : State, s.run = .running → unassignedAtPc s →
    ∃ t, step s = .next t ∧
      FaultTaken s t (.unimplementedOpcode (Memory.readAt s.mem s.pc.toNat) s.pc)

/-- 10_state.md section 4, 40_fetch_dispatch.md section 2 (R18, R71): a Halted or Faulted core has
no step, whatever memory holds, and a run from it changes nothing (D18, log 13). -/
def Obligations.NoStepUnlessRunning : Prop :=
  ∀ (n : Nat) (s : State),
    (s.run = .halted → step s = .fault .coreHalted ∧ runFor n s = s) ∧
    (s.run = .faulted → step s = .fault .coreFaulted ∧ runFor n s = s)

/-- 40_fetch_dispatch.md section 2 (R71): a Running core always has a next state. -/
def Obligations.RunningStepHasNextState : Prop :=
  ∀ s : State, s.run = .running → ∃ t, step s = .next t

/-- 40_fetch_dispatch.md section 5 (R80, clauses a to g): what a step may change. FAULT changes only
on an unassigned opcode or an Absolute-family opcode at 0xFFFE, and only from `none` when RUN and
FAULT agree as the invariant says. A step that leaves Running has PC one past the opcode (R140,
R157; D3, D5, logs 4, 6). -/
def Obligations.StepChangesOnly : Prop :=
  ∀ s t : State, step s = .next t →
    SameBytes s t ∧ t.y = s.y ∧ reservedBits t.p = reservedBits s.p ∧
    (t.fault ≠ s.fault → t.fault ≠ none ∧ t.run = .faulted ∧
      (unassignedAtPc s ∨
        Memory.readAt s.mem s.pc.toNat ∈ absoluteOpcodes ∧ s.pc = 0xFFFE#16)) ∧
    ((s.run = .faulted ↔ s.fault ≠ none) → t.fault ≠ s.fault → s.fault = none) ∧
    (t.run = .running → ∃ n, (n = 1 ∨ n = 2 ∨ n = 3) ∧
      n = (table .general (Memory.readAt s.mem s.pc.toNat)).length ∧ PcMoved s t n) ∧
    (t.run ≠ .running → PcMoved s t 1) ∧
    (t.a ≠ s.a → (table .general (Memory.readAt s.mem s.pc.toNat)).mnemonic = .lda) ∧
    (t.x ≠ s.x → Memory.readAt s.mem s.pc.toNat = 0xAA#8 ∨
      Memory.readAt s.mem s.pc.toNat = 0xE8#8) ∧
    (t.p ≠ s.p → Memory.readAt s.mem s.pc.toNat = 0xAA#8 ∨
      Memory.readAt s.mem s.pc.toNat = 0xE8#8 ∨
      (table .general (Memory.readAt s.mem s.pc.toNat)).mnemonic = .lda)

/-- 44_brk.md, 60_exceptions.md section 3, 70_reset_and_hazards.md section 4 (R140, R156, R193):
a step halts exactly on the byte 0x00, and faults exactly on an unassigned opcode or an
Absolute-family opcode at 0xFFFE (D3, D5). -/
def Obligations.HowAStepEnds : Prop :=
  ∀ s t : State, step s = .next t →
    (t.run = .halted ↔ Memory.readAt s.mem s.pc.toNat = 0x00#8) ∧
    (t.run = .faulted ↔ unassignedAtPc s ∨
      Memory.readAt s.mem s.pc.toNat ∈ absoluteOpcodes ∧ s.pc = 0xFFFE#16)

/-- 60_exceptions.md sections 1 and 3 (R151, R152, R157, R158): a step that records a fault records
the right one with the opcode's address, and changes nothing else but RUN and the fetch's PC
(D3, D5; logs 4, 6). -/
def Obligations.FaultsArePrecise : Prop :=
  ∀ (s t : State) (f : FaultRecord), s.fault = none → step s = .next t → t.fault = some f →
    FaultTaken s t f ∧
    ((unassignedAtPc s ∧ f = .unimplementedOpcode (Memory.readAt s.mem s.pc.toNat) s.pc) ∨
      (Memory.readAt s.mem s.pc.toNat ∈ absoluteOpcodes ∧ s.pc = 0xFFFE#16 ∧
        f = .wordReadAtTop 0xFFFE#16))

/-- 20_memory.md section 2, 60_exceptions.md section 1 (R32, R152): an instruction raises
WordReadAtTop exactly when it is of the Absolute family and its opcode is at 0xFFFE, and raises
nothing else (D5, log 6). -/
def Obligations.WordReadAtTopOnlyAtFFFE : Prop :=
  ∀ (i : Instr) (s t : State), s.fault = none → exec i s = .next t →
    (t.fault ≠ none ↔ readsOperandWord i = true ∧ s.pc = 0xFFFE#16) ∧
    (t.fault ≠ none → FaultTaken s t (.wordReadAtTop 0xFFFE#16))

/-- 30_encoding.md section 3 (R55): the MINIMAL profile agrees with GENERAL but on the seven memory
forms of LDA, which it faults on (D1, D3; logs 3, 4). -/
def Obligations.MinimalProfileAgreesOrFaults : Prop :=
  ∀ s : State,
    (Memory.readAt s.mem s.pc.toNat ∉ memoryLoadOpcodes →
      stepUnder .minimal s = stepUnder .general s) ∧
    (Memory.readAt s.mem s.pc.toNat ∈ memoryLoadOpcodes → s.run = .running →
      ∃ t, stepUnder .minimal s = .next t ∧
        FaultTaken s t (.unimplementedOpcode (Memory.readAt s.mem s.pc.toNat) s.pc))

/-- 40_fetch_dispatch.md section 2 with 41_addressing_modes.md (R72, R74, R75, R90 to R105): the
model's step, which decodes and then executes, is the spec's `Step()`, which resolves the operand
at PC, under both profiles. -/
def Obligations.StepRefinesThePseudocode : Prop :=
  ∀ (prof : TableProfile) (s : State), s.run = .running →
    stepUnder prof s = .next (pseudoStep prof s)

/-! ## What a program cannot learn -/

/-- 10_state.md section 3 (R15, R16): no step reads P: from two states that differ in P alone, the
next states differ in P alone. -/
def Obligations.StatusIsNeverRead : Prop :=
  ∀ (s t : State) (q : Byte), step s = .next t →
    ∃ q', step { s with p := q } = .next { t with p := q' }

/-- 70_reset_and_hazards.md section 4 (R193): whether and where a run ends is decided by memory, PC
and RUN; A, X, Y and P take no part. -/
def Obligations.MemoryDecidesTheRun : Prop :=
  ∀ (n : Nat) (s s' : State), SameBytes s s' → s'.pc = s.pc → s'.run = s.run →
    (runFor n s').pc = (runFor n s).pc ∧ (runFor n s').run = (runFor n s).run ∧
    SameBytes (runFor n s) (runFor n s')

/-- 20_memory.md sections 3 and 6, 40_fetch_dispatch.md section 5 (R36, R44, R80 clause h): a step
reads at most five bytes, and nothing but its sequence of reads decides what it does to the
registers: with any other memory that agrees there, it does the same. So the operand word at 0xFFFF
has no value (D5, log 6). -/
def Obligations.StepDependsOnlyOnItsReads : Prop :=
  (∀ s : State, (stepReads .general s).length ≤ 5) ∧
  ∀ (s t : State) (m : Memory), step s = .next t →
    (∀ a, a ∈ stepReads .general s → Memory.read m a = Memory.read s.mem a) →
    step { s with mem := m } = .next { t with mem := m }

/-- 10_state.md section 1 (R12): with Y = 0x00, as in every reachable state, the Y modes give the
addresses of the modes without Y. -/
def Obligations.YModesWithoutY : Prop :=
  ∀ (s : State) (w : Word) (b : Byte) (opcAddr : Word), s.y = 0x00#8 →
    exec (.ldaAbsoluteY w) s = exec (.ldaAbsolute w) s ∧
    resolve opcAddr .zeroPageY s = resolve opcAddr .zeroPage s ∧
    resolve opcAddr .absoluteY s = resolve opcAddr .absolute s ∧
    ∃ t, exec (.ldaIndirectY b) s = .next t ∧
      LoadedA s t (Memory.readAt s.mem (wordAt s.mem b.toNat)) 2

/-! ## Invariants -/

/-- 10_state.md sections 1, 3, 4 and 9: the invariant of reachable states holds after reset, of a
new core and of any core (D2, log 2 for Y; log 20 for the form of memory). -/
def Obligations.ResetMeetsInvariant : Prop :=
  StateInv State.reset ∧ ∀ s : State, Memory.wf s.mem = true → StateInv (resetCore s)

/-- 10_state.md (R12, R16, R19), 40_fetch_dispatch.md (R76, R80): every step keeps it: memory
canonical, Y zero, reserved bits zero, not both flags, Faulted exactly with a record. -/
def Obligations.StepKeepsInvariant : Prop :=
  ∀ s t : State, StateInv s → step s = .next t → StateInv t

/-- 70_reset_and_hazards.md section 2 (R185 to R188): every sequence of host calls keeps it, runs
and loads included, starting from any core that meets it. -/
def Obligations.HostCallsKeepInvariant : Prop :=
  ∀ (calls : List HostCall) (c : Session), SessionInv c →
    SessionInv (calls.foldl (fun c call => (hostCall call c).2) c)

/-! ## Reset, load and the host -/

/-- 10_state.md section 9 (R24): the state after the reset of a new core. Y is D2, FAULT D11, PC
the spec's derivation from a zero memory (logs 1, 2, 11). -/
def Obligations.ResetOfNewCore : Prop :=
  hostCall .reset construct = (.done, .live State.reset) ∧
  State.reset.a = 0x00#8 ∧ State.reset.x = 0x00#8 ∧ State.reset.y = 0x00#8 ∧
  State.reset.p = 0x00#8 ∧ State.reset.pc = 0x0000#16 ∧ State.reset.run = .running ∧
  State.reset.fault = none ∧ ∀ a : Word, Memory.read State.reset.mem a = 0x00#8

/-- 70_reset_and_hazards.md section 1 (R180 to R182): reset from any state gives a launch state on
the memory as it is (D2, D11; logs 2, 11). -/
def Obligations.ResetFromAnyState : Prop :=
  ∀ c : Session, ∃ t, hostCall .reset c = (.done, .live t) ∧
    t.a = 0x00#8 ∧ t.x = 0x00#8 ∧ t.y = 0x00#8 ∧ t.p = 0x00#8 ∧
    t.pc.toNat = wordAt (sessionMem c) 0xFFFC ∧ t.run = .running ∧ t.fault = none ∧
    t.mem = sessionMem c

/-- 70_reset_and_hazards.md section 2 (R186): where `load` puts every byte; the vector is written
last (D12, log 12), and no register changes. -/
def Obligations.LoadPlacesTheImage : Prop :=
  ∀ (image : List Byte) (c : Session), image.length ≤ 0x8000 →
    ∃ m, hostCall (.load image) c = (.done, withSessionMem m c) ∧ ∀ n, n < 65536 →
      Memory.readAt m n =
        if n = 0xFFFC then 0x00#8 else if n = 0xFFFD then 0x80#8
        else if 0x8000 ≤ n ∧ n < 0x8000 + image.length then image.getD (n - 0x8000) 0x00#8
        else Memory.readAt (sessionMem c) n

/-- 60_exceptions.md section 1 (R153): an image over 0x8000 bytes is refused with its length, and
nothing changes (D12, log 12). -/
def Obligations.OversizedLoadIsRefused : Prop :=
  ∀ (image : List Byte) (c : Session), 0x8000 < image.length →
    hostCall (.load image) c = (.error (.outOfBoundsLoad image.length), c)

/-- 70_reset_and_hazards.md section 1 (R184, the source's round trip): load then reset leaves PC at
0x8000 and A, X and P zero, and the first step fetches the byte at 0x8000. -/
def Obligations.LoadThenReset : Prop :=
  ∀ (image : List Byte) (c : Session), image.length ≤ 0x8000 →
    ∃ c' t, hostCall (.load image) c = (.done, c') ∧ hostCall .reset c' = (.done, .live t) ∧
      t.pc = 0x8000#16 ∧ t.a = 0x00#8 ∧ t.x = 0x00#8 ∧ t.p = 0x00#8 ∧ t.run = .running ∧
      (fetchBytes t).head? = some (image.getD 0 (Memory.readAt (sessionMem c) 0x8000))

/-- 40_fetch_dispatch.md section 2 (R73): the end of a run is the first state that is not Running;
more steps change nothing. -/
def Obligations.EndedRunStaysEnded : Prop :=
  ∀ (n k : Nat) (s : State), (runFor n s).run ≠ .running → runFor (n + k) s = runFor n s

/-- 40_fetch_dispatch.md section 2 (R73): `run` repeats the step, and what it returns on a Running
core: Ok with the halted state the steps reach, Err with the record of the Faulted state they reach,
or the fuel decides nothing (D21, log 16). -/
def Obligations.RunReturnsOkOrErr : Prop :=
  ∀ (fuel : Nat) (s : State), StateInv s → s.run = .running →
    (runFor 0 s = s ∧ ∀ t, step s = .next t → runFor (fuel + 1) s = runFor fuel t) ∧
    ((∃ t, hostCall (.run fuel) (.live s) = (.runOk, .live t) ∧ t = runFor fuel s ∧
        t.run = .halted ∧ t.fault = none) ∨
      (∃ t f, hostCall (.run fuel) (.live s) = (.runErr (some f), .live t) ∧
        t = runFor fuel s ∧ t.run = .faulted ∧ t.fault = some f) ∨
      (hostCall (.run fuel) (.live s) = (.runUnfinished, .live s) ∧
        (runFor fuel s).run = .running))

/-- 70_reset_and_hazards.md section 2 (R188): `run` is refused before the first reset and when the
core is Halted or Faulted (D10, D18; logs 10, 13). -/
def Obligations.RunIsRefusedUnlessRunning : Prop :=
  ∀ (fuel : Nat) (c : Session), (∀ s, c = .live s → s.run ≠ .running) →
    hostCall (.run fuel) c = (.error .runRefused, c)

/-- 70_reset_and_hazards.md section 2 (R187, R188), 60_exceptions.md section 1 (R153): a call that
is refused has no effect. -/
def Obligations.RefusedCallsHaveNoEffect : Prop :=
  ∀ (call : HostCall) (c : Session) (e : HostError),
    (hostCall call c).1 = .error e → (hostCall call c).2 = c

/-- 70_reset_and_hazards.md section 2 (R187): the host writes no register: a call that is neither
reset nor run leaves A, X, Y, P, PC, RUN and FAULT. -/
def Obligations.HostWritesNoRegister : Prop :=
  ∀ (call : HostCall) (s : State), call ≠ .reset → (∀ fuel, call ≠ .run fuel) →
    ∃ t, (hostCall call (.live s)).2 = .live t ∧ t.a = s.a ∧ t.x = s.x ∧ t.y = s.y ∧
      t.p = s.p ∧ t.pc = s.pc ∧ t.run = s.run ∧ t.fault = s.fault

/-- 70_reset_and_hazards.md section 1 (R182): a run changes no memory, so a reset after it starts
the same run again. -/
def Obligations.ResetRepeatsTheRun : Prop :=
  ∀ (fuel : Nat) (c : Session),
    hostCall .reset (hostCall (.run fuel) c).2 = hostCall .reset c

/-- 70_reset_and_hazards.md section 2 (R187), 20_memory.md section 2 (R31, R34): `read` returns the
byte at its address, `write` stores its byte there and nowhere else and leaves every register, and
the inspection returns A, X, Y, P and PC, each in its place (Y by D2, log 2; refused before the first
reset by D10, log 10). Neither reading changes the core. -/
def Obligations.HostAccessesReachTheCore : Prop :=
  ∀ (c : Session) (addr : Word) (v : Byte),
    hostCall (.read addr) c = (.byte (Memory.readAt (sessionMem c) addr.toNat), c) ∧
    (∃ m, hostCall (.write addr v) c = (.done, withSessionMem m c) ∧ ∀ n,
      Memory.readAt m n = if n = addr.toNat then v else Memory.readAt (sessionMem c) n) ∧
    (∀ s, c = .live s → hostCall .inspect c = (.registers s.a s.x s.y s.p s.pc, c)) ∧
    (∀ m, c = .constructed m → hostCall .inspect c = (.error .noRegisters, c))
end

