-- ==== Sys2Proof/Laws/Decode.lean ====
section
/-! SUPPORT. The laws of the table and the decoder: the entry of an encoded instruction, which
opcodes are assigned, and what a decoded list of bytes can be. -/

namespace Sys2Proof

/-- No two rows of the table have one opcode. -/
theorem tableRows_opcodes_distinct : tableRows.Pairwise (fun r r' => r.opcode ≠ r'.opcode) := by
  decide

/-- The table's entry is a row's or the sentinel. -/
theorem table_cases (prof : TableProfile) (op : Byte) :
    (∃ r ∈ tableRows, r.opcode = op ∧ assignedUnder prof r = true ∧ table prof op = r.entry) ∨
      table prof op = sentinelEntry := by
  unfold table
  cases h : tableRows.find? (fun r => r.opcode == op && assignedUnder prof r) with
  | none => exact .inr rfl
  | some r =>
    have hp := List.find?_some h
    simp only [Bool.and_eq_true, beq_iff_eq] at hp
    exact .inl ⟨r, List.mem_of_find?_eq_some h, hp.1, hp.2, rfl⟩

/-- One operand byte was taken. -/
theorem takeByte_ok {op : Byte} {mk : Byte → Instr} {bs rest : List Byte} {i : Instr}
    (h : takeByte op mk bs = .ok (i, rest)) : ∃ b, bs = b :: rest ∧ i = mk b := by
  cases bs with
  | nil => cases h
  | cons b bs => cases h; exact ⟨b, rfl, rfl⟩

/-- Two operand bytes were taken, low byte first. -/
theorem takeWord_ok {op : Byte} {mk : Word → Instr} {bs rest : List Byte} {i : Instr}
    (h : takeWord op mk bs = .ok (i, rest)) :
    ∃ lo hi, bs = lo :: hi :: rest ∧ i = mk (mkWord hi lo) := by
  match bs, h with
  | [], h => cases h
  | [_], h => cases h
  | lo :: hi :: _, h => cases h; exact ⟨lo, hi, rfl, rfl⟩

/-- The instruction decoded from an opcode's bytes has that opcode, which the table assigns. -/
theorem decode_opcode {prof : TableProfile} {op : Byte} {tail rest : List Byte} {i : Instr}
    (h : decode prof (op :: tail) = .ok (i, rest)) :
    i.opcode = op ∧ (table prof op).mnemonic = i.mnemonic := by
  rcases table_cases prof op with ⟨r, hr, rfl, -, ht⟩ | ht
  · simp only [decode, ht] at h ⊢
    simp only [tableRows, List.mem_cons, List.not_mem_nil, or_false] at hr
    rcases hr with rfl | rfl | rfl | rfl | rfl | rfl | rfl | rfl | rfl | rfl | rfl <;>
      simp only [decodeLda] at h <;>
      first
        | (cases h; exact ⟨rfl, rfl⟩)
        | (obtain ⟨b, -, rfl⟩ := takeByte_ok h; exact ⟨rfl, rfl⟩)
        | (obtain ⟨lo, hi, -, rfl⟩ := takeWord_ok h; exact ⟨rfl, rfl⟩)
  · simp only [decode, ht, sentinelEntry] at h
    cases h

/-- Three bytes decode unless the opcode's entry is the sentinel. -/
theorem decode_three (prof : TableProfile) (op b0 b1 : Byte) :
    (table prof op).mnemonic = .invalid ∧ decode prof [op, b0, b1] = .error (.unassigned op) ∨
      ∃ i rest, decode prof [op, b0, b1] = .ok (i, rest) := by
  rcases table_cases prof op with ⟨r, hr, -, -, ht⟩ | ht
  · refine .inr ?_
    simp only [decode, ht]
    simp only [tableRows, List.mem_cons, List.not_mem_nil, or_false] at hr
    rcases hr with rfl | rfl | rfl | rfl | rfl | rfl | rfl | rfl | rfl | rfl | rfl <;>
      exact ⟨_, _, rfl⟩
  · exact .inl ⟨by rw [ht]; rfl, by simp only [decode, ht, sentinelEntry]⟩

end Sys2Proof
end

