-- ==== Sys2Proof/Laws/Flags.lean ====
section
/-! SUPPORT. The flag update (spec/40_fetch_dispatch.md R76), bit by bit. -/

namespace Sys2Proof.Machine

theorem byte_getLsbD_seven (v : Byte) : v.getLsbD 7 = decide (128 ≤ v.toNat) := by
  have h := BitVec.msb_eq_decide v
  simpa [BitVec.msb_eq_getLsbD_last] using h

/-- Z after the update. -/
theorem zFlag_setZN (p v : Byte) : zFlag (setZN p v) = decide (v = 0x00#8) := by
  simp only [zFlag, setZN, setN, setZ]
  split_ifs <;> simp [*]

/-- N after the update. -/
theorem nFlag_setZN (p v : Byte) : nFlag (setZN p v) = v.getLsbD 7 := by
  simp only [nFlag, setZN, setN, setZ]
  split_ifs <;> simp_all

/-- The reserved bits after the update. -/
theorem reservedBits_setZN (p v : Byte) : reservedBits (setZN p v) = reservedBits p := by
  simp only [reservedBits, setZN, setN, setZ]
  split_ifs <;>
    (apply BitVec.eq_of_getLsbD_eq
     intro i hi
     interval_cases i <;> simp)

/-- The flag update in the terms of the claims. -/
theorem flagsFrom_setZN (p v : Byte) : FlagsFrom p (setZN p v) v := by
  refine ⟨?_, ?_, reservedBits_setZN p v⟩
  · simp [zFlag_setZN]
  · rw [nFlag_setZN, byte_getLsbD_seven, decide_eq_true_iff]

end Sys2Proof.Machine
end

