-- ==== Sys2Proof/Laws/Memory.lean ====
section
/-! SUPPORT. The laws of the memory list: a read after an insertion or a removal, and the canonical
form that every memory operation keeps. -/

namespace Sys2Proof.Machine

theorem readAt_insertAt (m : Memory) (k j : Nat) (v : Byte) :
    Memory.readAt (Memory.insertAt m k v) j = if k = j then v else Memory.readAt m j := by
  induction m with
  | nil => simp [Memory.insertAt, Memory.readAt]
  | cons c m ih =>
    obtain ⟨a, b⟩ := c
    simp only [Memory.insertAt]
    split_ifs <;> simp only [Memory.readAt, ih] <;> split_ifs <;> first | rfl | omega

theorem readAt_eraseAt (m : Memory) (k j : Nat) :
    Memory.readAt (Memory.eraseAt m k) j = if k = j then 0x00#8 else Memory.readAt m j := by
  induction m with
  | nil => simp [Memory.eraseAt, Memory.readAt]
  | cons c m ih =>
    obtain ⟨a, b⟩ := c
    simp only [Memory.eraseAt] at ih
    by_cases h : a = k <;> simp [Memory.eraseAt, Memory.readAt, h, ih] <;> split_ifs <;>
      first | rfl | omega

/-! ## The canonical form -/

theorem wfFrom_cons {lo a : Nat} {v : Byte} {m : Memory} :
    Memory.wfFrom lo ((a, v) :: m) = true ↔
      lo ≤ a ∧ a < Config.memorySize ∧ v ≠ 0x00#8 ∧ Memory.wfFrom (a + 1) m = true := by
  simp [Memory.wfFrom, and_assoc]

theorem wfFrom_mono {lo lo' : Nat} {m : Memory} (h : Memory.wfFrom lo m = true) (hl : lo' ≤ lo) :
    Memory.wfFrom lo' m = true := by
  cases m with
  | nil => rfl
  | cons c m =>
    obtain ⟨h1, h2, h3, h4⟩ := wfFrom_cons.1 h
    exact wfFrom_cons.2 ⟨hl.trans h1, h2, h3, h4⟩

theorem wfFrom_insertAt {m : Memory} {lo k : Nat} {v : Byte} (h : Memory.wfFrom lo m = true)
    (hk : lo ≤ k) (hb : k < Config.memorySize) (hv : v ≠ 0x00#8) :
    Memory.wfFrom lo (Memory.insertAt m k v) = true := by
  induction m generalizing lo with
  | nil => exact wfFrom_cons.2 ⟨hk, hb, hv, rfl⟩
  | cons c m ih =>
    obtain ⟨a, b⟩ := c
    obtain ⟨h1, h2, h3, h4⟩ := wfFrom_cons.1 h
    simp only [Memory.insertAt]
    split_ifs with hlt heq
    · exact wfFrom_cons.2 ⟨hk, hb, hv, wfFrom_cons.2 ⟨hlt, h2, h3, h4⟩⟩
    · exact wfFrom_cons.2 ⟨hk, hb, hv, heq ▸ h4⟩
    · exact wfFrom_cons.2 ⟨h1, h2, h3, ih h4 (by omega)⟩

theorem wfFrom_eraseAt {m : Memory} {lo k : Nat} (h : Memory.wfFrom lo m = true) :
    Memory.wfFrom lo (Memory.eraseAt m k) = true := by
  induction m generalizing lo with
  | nil => rfl
  | cons c m ih =>
    obtain ⟨a, b⟩ := c
    obtain ⟨h1, h2, h3, h4⟩ := wfFrom_cons.1 h
    simp only [Memory.eraseAt] at ih ⊢
    by_cases hak : a = k
    · simpa [hak] using wfFrom_mono (ih h4) (by omega)
    · simpa [hak] using wfFrom_cons.2 ⟨h1, h2, h3, ih h4⟩

theorem wf_write {m : Memory} (h : Memory.wf m = true) (addr : Word) (v : Byte) :
    Memory.wf (Memory.write m addr v) = true := by
  unfold Memory.write
  split_ifs with hv
  · exact wfFrom_eraseAt h
  · exact wfFrom_insertAt h (Nat.zero_le _) addr.isLt hv

theorem wf_writeWord {m m' : Memory} (h : Memory.wf m = true) {addr w : Word}
    (hw : Memory.writeWord m addr w = some m') : Memory.wf m' = true := by
  unfold Memory.writeWord at hw
  split_ifs at hw
  cases hw
  exact wf_write (wf_write h _ _) _ _

theorem wf_copy {m : Memory} (h : Memory.wf m = true) (addr : Word) (bytes : List Byte) :
    Memory.wf (Memory.copy m addr bytes) = true := by
  induction bytes generalizing m addr with
  | nil => exact h
  | cons v vs ih => exact ih (wf_write h addr v) _

theorem wf_loadImage {m m' : Memory} (h : Memory.wf m = true) {image : List Byte}
    (hl : loadImage image m = some m') : Memory.wf m' = true := by
  unfold loadImage at hl
  split_ifs at hl
  exact wf_writeWord (wf_copy h _ _) hl

theorem wf_placeAtPc {s : State} (h : Memory.wf s.mem = true) (bytes : List Byte) :
    Memory.wf (placeAtPc bytes s).mem = true := wf_copy h _ _

theorem wf_reset : Memory.wf State.reset.mem = true := rfl

/-! ## Reads of the accessors -/

/-- The byte at a wrapped next address. -/
theorem read_eq (m : Memory) (addr : Word) : Memory.read m addr = Memory.readAt m addr.toNat := rfl

/-- The next address below the top. -/
theorem add_one_toNat {a : Word} (h : a ≠ 0xFFFF#16) : (a + 1#16).toNat = a.toNat + 1 := by
  have := a.isLt
  have h' : a.toNat ≠ 65535 := fun e => h (BitVec.eq_of_toNat_eq e)
  simp [BitVec.toNat_add]
  omega

/-- Everything a byte write does (spec/20_memory.md R34). -/
theorem readAt_write (m : Memory) (a : Word) (v : Byte) (n : Nat) :
    Memory.readAt (Memory.write m a v) n = if a.toNat = n then v else Memory.readAt m n := by
  unfold Memory.write
  split_ifs <;> simp [readAt_insertAt, readAt_eraseAt, *]

/-- Everything a copy that stays in memory does (spec/70_reset_and_hazards.md R186). -/
theorem readAt_copy (m : Memory) (a : Word) (bs : List Byte) (h : a.toNat + bs.length ≤ 65536)
    (n : Nat) : Memory.readAt (Memory.copy m a bs) n =
      if a.toNat ≤ n ∧ n < a.toNat + bs.length then bs.getD (n - a.toNat) 0x00#8
      else Memory.readAt m n := by
  induction bs generalizing m a with
  | nil => simp [Memory.copy]
  | cons v vs ih =>
    simp only [Memory.copy, List.length_cons] at *
    by_cases ht : a = 0xFFFF#16
    · subst ht
      obtain rfl : vs = [] := by
        cases vs with
        | nil => rfl
        | cons => simp at h; omega
      by_cases hn : n = 65535
      · simp [Memory.copy, readAt_write, hn]
      · have hn' : ¬ 65535 = n := fun e => hn e.symm
        simp only [Memory.copy, readAt_write, List.length_nil, BitVec.toNat_ofNat]
        rw [if_neg (by omega), if_neg (by omega)]
    · have hs := add_one_toNat ht
      rw [ih _ _ (by omega), hs, readAt_write]
      by_cases h1 : a.toNat = n
      · simp [h1]
      · by_cases h2 : a.toNat + 1 ≤ n ∧ n < a.toNat + 1 + vs.length
        · obtain ⟨k, rfl⟩ : ∃ k, n = a.toNat + 1 + k := ⟨n - (a.toNat + 1), by omega⟩
          rw [if_pos h2, if_pos (by omega), Nat.add_sub_cancel_left,
            show a.toNat + 1 + k - a.toNat = k + 1 by omega]
          rfl
        · rw [if_neg h2, if_neg h1, if_neg (by omega)]

theorem readWord_eq {m : Memory} {addr : Word} (h : addr ≠ 0xFFFF#16) :
    Memory.readWord m addr =
      some (mkWord (Memory.read m (addr + 1#16)) (Memory.read m addr)) := by
  simp [Memory.readWord, h]

theorem mkWord_toNat (hi lo : Byte) : (mkWord hi lo).toNat = 256 * hi.toNat + lo.toNat := by
  have h := lo.isLt
  simp only [mkWord, BitVec.toNat_append]
  rw [← Nat.shiftLeft_add_eq_or_of_lt h, Nat.shiftLeft_eq]
  omega

theorem mkWord_hiByte_loByte (w : Word) : mkWord (hiByte w) (loByte w) = w := by
  apply BitVec.eq_of_toNat_eq
  have h := w.isLt
  simp only [mkWord_toNat, hiByte, loByte, BitVec.extractLsb'_toNat, Nat.shiftRight_eq_div_pow]
  omega

theorem hiByte_toNat (w : Word) : (hiByte w).toNat = w.toNat / 256 := by
  have h := w.isLt
  simp only [hiByte, BitVec.extractLsb'_toNat, Nat.shiftRight_eq_div_pow]
  omega

theorem loByte_toNat (w : Word) : (loByte w).toNat = w.toNat % 256 := by
  simp only [loByte, BitVec.extractLsb'_toNat, Nat.shiftRight_eq_div_pow]
  omega

theorem hiByte_mkWord (hi lo : Byte) : hiByte (mkWord hi lo) = hi := by
  apply BitVec.eq_of_toNat_eq
  rw [hiByte_toNat, mkWord_toNat]
  omega

theorem loByte_mkWord (hi lo : Byte) : loByte (mkWord hi lo) = lo := by
  apply BitVec.eq_of_toNat_eq
  rw [loByte_toNat, mkWord_toNat]
  omega

end Sys2Proof.Machine
end

