-- ==== Sys2Proof/Laws/Operands.lean ====
section
/-! SUPPORT. The effective-address functions (spec/41_addressing_modes.md) as sums of natural
numbers. -/

namespace Sys2Proof.Machine

theorem zext16_toNat (b : Byte) : (zext16 b).toNat = b.toNat := by
  simp only [zext16, BitVec.toNat_setWidth]
  omega

theorem zeroPageIndexedEa_toNat (b i : Byte) :
    (zeroPageIndexedEa b i).toNat = (b.toNat + i.toNat) % 256 := by
  simp [zeroPageIndexedEa, zext16_toNat, BitVec.toNat_add]

theorem absoluteIndexedEa_toNat (w : Word) (i : Byte) :
    (absoluteIndexedEa w i).toNat = (w.toNat + i.toNat) % 65536 := by
  simp [absoluteIndexedEa, BitVec.toNat_add, zext16_toNat]

/-- A zero-page pointer is not at the top of memory. -/
theorem zext16_ne_top (b : Byte) : zext16 b ≠ 0xFFFF#16 := by
  intro h
  have h' := congrArg BitVec.toNat h
  have hb := b.isLt
  rw [zext16_toNat, BitVec.toNat_ofNat] at h'
  omega

/-- A zero-page pointer's word, the high byte at the next address (R102). -/
theorem pointerWord_toNat (m : Memory) (b : Byte) : (pointerWord m b).toNat =
    256 * (Memory.readAt m (b.toNat + 1)).toNat + (Memory.readAt m b.toNat).toNat := by
  rw [pointerWord, mkWord_toNat, read_eq, read_eq, add_one_toNat (zext16_ne_top b), zext16_toNat]

/-- A zero-page pointer's word is the word read at it, which never raises (R102). -/
theorem readWord_zeroPage (m : Memory) (ptr : Byte) :
    Memory.readWord m (zext16 ptr) = some (pointerWord m ptr) :=
  readWord_eq (zext16_ne_top ptr)

/-- The page-cross marker compares the high bytes (R100). -/
theorem pageCrossed_iff (w ea : Word) :
    pageCrossed w ea = true ↔ ea.toNat / 256 ≠ w.toNat / 256 := by
  simp only [pageCrossed, bne_iff_ne, ne_eq, ← BitVec.toNat_inj, hiByte_toNat]
  omega

/-- The word at PC resolves, but at 0xFFFF (R97). -/
theorem resolveWord_cases (opcAddr : Word) (s : State) (mk : Word → Operand) :
    (s.pc = 0xFFFF#16 ∧ resolveWord opcAddr s mk = .raises (.wordReadAtTop opcAddr)) ∨
      (s.pc ≠ 0xFFFF#16 ∧ resolveWord opcAddr s mk =
        .operand (mk (mkWord (Memory.read s.mem (s.pc + 1#16)) (Memory.read s.mem s.pc)))) := by
  by_cases h : s.pc = 0xFFFF#16
  · exact .inl ⟨h, by simp [resolveWord, Memory.readWord, h]⟩
  · exact .inr ⟨h, by simp only [resolveWord, readWord_eq h]⟩

end Sys2Proof.Machine
end

