-- ==== Sys2Proof/Laws/State.lean ====
section
/-! SUPPORT. What each update of the state does to each field: one lemma per field per update, true
by unfolding. -/

namespace Sys2Proof.Machine

/-! ## advancePc -/

@[simp] theorem advancePc_a (n : Word) (s : State) : (advancePc n s).a = s.a := rfl
@[simp] theorem advancePc_x (n : Word) (s : State) : (advancePc n s).x = s.x := rfl
@[simp] theorem advancePc_y (n : Word) (s : State) : (advancePc n s).y = s.y := rfl
@[simp] theorem advancePc_p (n : Word) (s : State) : (advancePc n s).p = s.p := rfl
@[simp] theorem advancePc_pc (n : Word) (s : State) : (advancePc n s).pc = s.pc + n := rfl
@[simp] theorem advancePc_run (n : Word) (s : State) : (advancePc n s).run = s.run := rfl
@[simp] theorem advancePc_fault (n : Word) (s : State) : (advancePc n s).fault = s.fault := rfl
@[simp] theorem advancePc_mem (n : Word) (s : State) : (advancePc n s).mem = s.mem := rfl

/-! ## fetchAdvance -/

@[simp] theorem fetchAdvance_a (s : State) : (fetchAdvance s).a = s.a := rfl
@[simp] theorem fetchAdvance_x (s : State) : (fetchAdvance s).x = s.x := rfl
@[simp] theorem fetchAdvance_y (s : State) : (fetchAdvance s).y = s.y := rfl
@[simp] theorem fetchAdvance_p (s : State) : (fetchAdvance s).p = s.p := rfl
@[simp] theorem fetchAdvance_pc (s : State) : (fetchAdvance s).pc = s.pc + 1#16 := rfl
@[simp] theorem fetchAdvance_run (s : State) : (fetchAdvance s).run = s.run := rfl
@[simp] theorem fetchAdvance_fault (s : State) : (fetchAdvance s).fault = s.fault := rfl
@[simp] theorem fetchAdvance_mem (s : State) : (fetchAdvance s).mem = s.mem := rfl

/-! ## halt -/

@[simp] theorem halt_a (s : State) : (halt s).a = s.a := rfl
@[simp] theorem halt_x (s : State) : (halt s).x = s.x := rfl
@[simp] theorem halt_y (s : State) : (halt s).y = s.y := rfl
@[simp] theorem halt_p (s : State) : (halt s).p = s.p := rfl
@[simp] theorem halt_pc (s : State) : (halt s).pc = s.pc := rfl
@[simp] theorem halt_run (s : State) : (halt s).run = .halted := rfl
@[simp] theorem halt_fault (s : State) : (halt s).fault = s.fault := rfl
@[simp] theorem halt_mem (s : State) : (halt s).mem = s.mem := rfl

/-! ## raise -/

@[simp] theorem raise_a (f : FaultRecord) (s : State) : (raise f s).a = s.a := rfl
@[simp] theorem raise_x (f : FaultRecord) (s : State) : (raise f s).x = s.x := rfl
@[simp] theorem raise_y (f : FaultRecord) (s : State) : (raise f s).y = s.y := rfl
@[simp] theorem raise_p (f : FaultRecord) (s : State) : (raise f s).p = s.p := rfl
@[simp] theorem raise_pc (f : FaultRecord) (s : State) : (raise f s).pc = s.pc := rfl
@[simp] theorem raise_run (f : FaultRecord) (s : State) : (raise f s).run = .faulted := rfl
@[simp] theorem raise_fault (f : FaultRecord) (s : State) : (raise f s).fault = some f := rfl
@[simp] theorem raise_mem (f : FaultRecord) (s : State) : (raise f s).mem = s.mem := rfl

/-! ## loadA -/

@[simp] theorem loadA_a (v : Byte) (s : State) : (loadA v s).a = v := rfl
@[simp] theorem loadA_x (v : Byte) (s : State) : (loadA v s).x = s.x := rfl
@[simp] theorem loadA_y (v : Byte) (s : State) : (loadA v s).y = s.y := rfl
@[simp] theorem loadA_p (v : Byte) (s : State) : (loadA v s).p = setZN s.p v := rfl
@[simp] theorem loadA_pc (v : Byte) (s : State) : (loadA v s).pc = s.pc := rfl
@[simp] theorem loadA_run (v : Byte) (s : State) : (loadA v s).run = s.run := rfl
@[simp] theorem loadA_fault (v : Byte) (s : State) : (loadA v s).fault = s.fault := rfl
@[simp] theorem loadA_mem (v : Byte) (s : State) : (loadA v s).mem = s.mem := rfl

/-! ## writeX -/

@[simp] theorem writeX_a (v : Byte) (s : State) : (writeX v s).a = s.a := rfl
@[simp] theorem writeX_x (v : Byte) (s : State) : (writeX v s).x = v := rfl
@[simp] theorem writeX_y (v : Byte) (s : State) : (writeX v s).y = s.y := rfl
@[simp] theorem writeX_p (v : Byte) (s : State) : (writeX v s).p = setZN s.p v := rfl
@[simp] theorem writeX_pc (v : Byte) (s : State) : (writeX v s).pc = s.pc := rfl
@[simp] theorem writeX_run (v : Byte) (s : State) : (writeX v s).run = s.run := rfl
@[simp] theorem writeX_fault (v : Byte) (s : State) : (writeX v s).fault = s.fault := rfl
@[simp] theorem writeX_mem (v : Byte) (s : State) : (writeX v s).mem = s.mem := rfl

/-! ## resetCore -/

@[simp] theorem resetCore_a (s : State) : (resetCore s).a = 0x00#8 := rfl
@[simp] theorem resetCore_x (s : State) : (resetCore s).x = 0x00#8 := rfl
@[simp] theorem resetCore_y (s : State) : (resetCore s).y = 0x00#8 := rfl
@[simp] theorem resetCore_p (s : State) : (resetCore s).p = 0x00#8 := rfl
@[simp] theorem resetCore_pc (s : State) : (resetCore s).pc = (launch s.mem).pc := rfl
@[simp] theorem resetCore_run (s : State) : (resetCore s).run = .running := rfl
@[simp] theorem resetCore_fault (s : State) : (resetCore s).fault = none := rfl
@[simp] theorem resetCore_mem (s : State) : (resetCore s).mem = s.mem := rfl

/-! ## placeAtPc -/

@[simp] theorem placeAtPc_a (bytes : List Byte) (s : State) : (placeAtPc bytes s).a = s.a := rfl
@[simp] theorem placeAtPc_x (bytes : List Byte) (s : State) : (placeAtPc bytes s).x = s.x := rfl
@[simp] theorem placeAtPc_y (bytes : List Byte) (s : State) : (placeAtPc bytes s).y = s.y := rfl
@[simp] theorem placeAtPc_p (bytes : List Byte) (s : State) : (placeAtPc bytes s).p = s.p := rfl
@[simp] theorem placeAtPc_pc (bytes : List Byte) (s : State) : (placeAtPc bytes s).pc = s.pc := rfl
@[simp] theorem placeAtPc_run (bytes : List Byte) (s : State) : (placeAtPc bytes s).run = .running := rfl
@[simp] theorem placeAtPc_fault (bytes : List Byte) (s : State) : (placeAtPc bytes s).fault = none := rfl
@[simp] theorem placeAtPc_mem (bytes : List Byte) (s : State) : (placeAtPc bytes s).mem = Memory.copy s.mem s.pc bytes := rfl

/-! ## launch -/

@[simp] theorem launch_a (m : Memory) : (launch m).a = 0x00#8 := rfl
@[simp] theorem launch_x (m : Memory) : (launch m).x = 0x00#8 := rfl
@[simp] theorem launch_y (m : Memory) : (launch m).y = 0x00#8 := rfl
@[simp] theorem launch_p (m : Memory) : (launch m).p = 0x00#8 := rfl
@[simp] theorem launch_run (m : Memory) : (launch m).run = .running := rfl
@[simp] theorem launch_fault (m : Memory) : (launch m).fault = none := rfl
@[simp] theorem launch_mem (m : Memory) : (launch m).mem = m := rfl

/-- Reset of a new core is the model's reset state (spec/10_state.md R24). -/
theorem launch_empty : launch [] = State.reset := by decide

end Sys2Proof.Machine
end

