-- ==== Sys2Proof/Laws/Exec.lean ====
section
/-! SUPPORT. What each shared operation of the meanings can do, said once: a load, a load of the
Absolute family, a write of X; then what `exec` answers, and what no instruction changes. -/

namespace Sys2Proof.Machine

/-- Moving PC on in the terms of the claims. -/
theorem pcMoved_advancePc (n : Word) (s : State) : (advancePc n s).pc.toNat =
    (s.pc.toNat + n.toNat) % 65536 := by
  simp [BitVec.toNat_add]

/-- A load completes with A, Z, N and PC written. -/
theorem execLoad_spec (n : Word) (v : Byte) (s : State) :
    ∃ t, execLoad n v s = .next t ∧ LoadedA s t v n.toNat :=
  ⟨_, rfl, rfl, flagsFrom_setZN _ _, by simp [PcMoved, BitVec.toNat_add], rfl, rfl, rfl, rfl,
    fun _ => rfl⟩

/-- The operand word is at 0xFFFF exactly when the opcode is at 0xFFFE. -/
theorem fetchAdvance_pc_top (s : State) : (fetchAdvance s).pc = 0xFFFF#16 ↔ s.pc = 0xFFFE#16 := by
  simp only [fetchAdvance_pc]
  constructor <;> intro h <;> bv_omega

/-- A load of the Absolute family completes unless the opcode is at 0xFFFE. -/
theorem execLoadAbsolute_load {s : State} (h : s.pc ≠ 0xFFFE#16) (ea : Word) :
    execLoadAbsolute ea s = execLoad 3#16 (Memory.read s.mem ea) s := by
  rw [execLoadAbsolute, if_neg (mt (fetchAdvance_pc_top s).1 h)]

/-- At 0xFFFE it raises WordReadAtTop. -/
theorem execLoadAbsolute_raise {s : State} (h : s.pc = 0xFFFE#16) (ea : Word) :
    execLoadAbsolute ea s = .next (raise (.wordReadAtTop s.pc) (fetchAdvance s)) := by
  rw [execLoadAbsolute, if_pos ((fetchAdvance_pc_top s).2 h)]

/-- A raised fault in the terms of the claims. -/
theorem faultTaken_raise (f : FaultRecord) (s : State) :
    FaultTaken s (raise f (fetchAdvance s)) f :=
  ⟨rfl, rfl, by simp [PcMoved, BitVec.toNat_add], rfl, rfl, rfl, rfl, fun _ => rfl⟩

/-- A write of X in the terms of the claims. -/
theorem wroteX_writeX (v : Byte) (s : State) : WroteX s (advancePc 1#16 (writeX v s)) v :=
  ⟨rfl, flagsFrom_setZN _ _, by simp [PcMoved, BitVec.toNat_add], rfl, rfl, rfl, rfl, fun _ => rfl⟩

/-- Everything `exec` can answer: an instruction of LDA loads some byte or raises WordReadAtTop,
TAX and INX write X, BRK halts. -/
theorem exec_cases (i : Instr) (s : State) :
    (i.mnemonic = .lda ∧ (readsOperandWord i = true → s.pc ≠ 0xFFFE#16) ∧
        ∃ v, exec i s = .next (advancePc (BitVec.ofNat 16 (encode i).length) (loadA v s))) ∨
      (readsOperandWord i = true ∧ s.pc = 0xFFFE#16 ∧
        exec i s = .next (raise (.wordReadAtTop s.pc) (fetchAdvance s))) ∨
      (i = .tax ∧ exec i s = .next (advancePc 1#16 (writeX s.a s))) ∨
      (i = .inx ∧ exec i s = .next (advancePc 1#16 (writeX (s.x + 1#8) s))) ∨
      (i = .brk ∧ exec i s = .next (halt (fetchAdvance s))) := by
  have abs : ∀ (j : Instr) (ea : Word), j.mnemonic = .lda → readsOperandWord j = true →
      (encode j).length = 3 → exec j s = execLoadAbsolute ea s →
      ((j.mnemonic = .lda ∧ (readsOperandWord j = true → s.pc ≠ 0xFFFE#16) ∧
        ∃ v, exec j s = .next (advancePc (BitVec.ofNat 16 (encode j).length) (loadA v s))) ∨
      (readsOperandWord j = true ∧ s.pc = 0xFFFE#16 ∧
        exec j s = .next (raise (.wordReadAtTop s.pc) (fetchAdvance s)))) := by
    intro j ea hm hr hl he
    by_cases h : s.pc = 0xFFFE#16
    · exact .inr ⟨hr, h, he.trans (execLoadAbsolute_raise h ea)⟩
    · exact .inl ⟨hm, fun _ => h, _, by rw [hl]; exact he.trans (execLoadAbsolute_load h ea)⟩
  have noWord : ∀ {j : Instr}, readsOperandWord j = false →
      readsOperandWord j = true → s.pc ≠ 0xFFFE#16 := fun h h' => absurd (h.symm.trans h') (by simp)
  cases i with
  | brk => exact .inr (.inr (.inr (.inr ⟨rfl, rfl⟩)))
  | ldaIndirectX b => exact .inl ⟨rfl, noWord rfl, _, rfl⟩
  | ldaZeroPage b => exact .inl ⟨rfl, noWord rfl, _, rfl⟩
  | ldaImmediate b => exact .inl ⟨rfl, noWord rfl, _, rfl⟩
  | tax => exact .inr (.inr (.inl ⟨rfl, rfl⟩))
  | ldaAbsolute w =>
    exact (abs _ w rfl rfl rfl rfl).imp id .inl
  | ldaIndirectY b => exact .inl ⟨rfl, noWord rfl, _, rfl⟩
  | ldaZeroPageX b => exact .inl ⟨rfl, noWord rfl, _, rfl⟩
  | ldaAbsoluteY w =>
    exact (abs _ (absoluteIndexedEa w s.y) rfl rfl rfl rfl).imp id .inl
  | ldaAbsoluteX w =>
    exact (abs _ (absoluteIndexedEa w s.x) rfl rfl rfl rfl).imp id .inl
  | inx => exact .inr (.inr (.inr (.inl ⟨rfl, rfl⟩)))

/-- `exec` always answers a next state. -/
theorem exec_next (i : Instr) (s : State) : ∃ t, exec i s = .next t := by
  obtain ⟨-, -, v, h⟩ | ⟨-, -, h⟩ | ⟨-, h⟩ | ⟨-, h⟩ | ⟨-, h⟩ := exec_cases i s <;> exact ⟨_, h⟩

/-- No instruction writes memory (spec/10_state.md R21). -/
theorem exec_mem {i : Instr} {s t : State} (h : exec i s = .next t) : t.mem = s.mem := by
  obtain ⟨-, -, v, e⟩ | ⟨-, -, e⟩ | ⟨-, e⟩ | ⟨-, e⟩ | ⟨-, e⟩ := exec_cases i s <;>
    (rw [e] at h; cases h; rfl)

/-- No instruction writes Y (R12). -/
theorem exec_y {i : Instr} {s t : State} (h : exec i s = .next t) : t.y = s.y := by
  obtain ⟨-, -, v, e⟩ | ⟨-, -, e⟩ | ⟨-, e⟩ | ⟨-, e⟩ | ⟨-, e⟩ := exec_cases i s <;>
    (rw [e] at h; cases h; rfl)

end Sys2Proof.Machine
end

