-- ==== Sys2Proof/Laws/Step.lean ====
section
/-! SUPPORT. What a step can do, said once, and the laws of a repeated step. -/

namespace Sys2Proof.Machine

/-- A step that answers a next state ran the instruction at PC, or raised UnimplementedOpcode. -/
theorem stepUnder_cases {prof : TableProfile} {s t : State} (h : stepUnder prof s = .next t) :
    s.run = .running ∧ ((∃ i, fetchInstr prof s = .ok i ∧ exec i s = .next t) ∨
      ((∃ e, fetchInstr prof s = .error e) ∧ t = raiseUnimplemented s)) := by
  unfold stepUnder at h
  cases hr : s.run <;> rw [hr] at h
  case running =>
    refine ⟨rfl, ?_⟩
    cases hf : fetchInstr prof s <;> rw [hf] at h
    case ok i => exact .inl ⟨i, rfl, h⟩
    case error e => cases h; exact .inr ⟨⟨e, rfl⟩, rfl⟩
  all_goals cases h

/-- A Running core whose fetch gives an instruction runs it. -/
theorem stepUnder_of_fetch {prof : TableProfile} {s : State} {i : Instr} (hr : s.run = .running)
    (hf : fetchInstr prof s = .ok i) : stepUnder prof s = exec i s := by
  simp only [stepUnder, hr, hf]

/-- A Running core whose fetch gives no instruction raises UnimplementedOpcode. -/
theorem stepUnder_of_no_fetch {prof : TableProfile} {s : State} {e : DecodeError}
    (hr : s.run = .running) (hf : fetchInstr prof s = .error e) :
    stepUnder prof s = .next (raiseUnimplemented s) := by
  simp only [stepUnder, hr, hf]

/-- A fetched instruction is the one the bytes at PC decode to. -/
theorem fetchInstr_ok {prof : TableProfile} {s : State} {i : Instr}
    (h : fetchInstr prof s = .ok i) : ∃ rest, decode prof (fetchBytes s) = .ok (i, rest) := by
  unfold fetchInstr at h
  cases hd : decode prof (fetchBytes s) with
  | error e => rw [hd] at h; cases h
  | ok r => rw [hd] at h; cases h; exact ⟨r.2, rfl⟩

/-- A step writes no memory. -/
theorem step_mem {s t : State} (h : step s = .next t) : t.mem = s.mem := by
  obtain ⟨-, ⟨i, -, e⟩ | ⟨-, rfl⟩⟩ := stepUnder_cases h
  · exact exec_mem e
  · rfl

/-- A step writes no Y. -/
theorem step_y {s t : State} (h : step s = .next t) : t.y = s.y := by
  obtain ⟨-, ⟨i, -, e⟩ | ⟨-, rfl⟩⟩ := stepUnder_cases h
  · exact exec_y e
  · rfl

/-- Which opcodes GENERAL leaves unassigned. -/
theorem table_general_invalid (op : Byte) : (table .general op).mnemonic = .invalid ↔
    op ∉ sourceOpcodes ∧ op ∉ memoryLoadOpcodes := by
  revert op
  decide +kernel

/-- Which opcodes MINIMAL leaves unassigned. -/
theorem table_minimal_invalid (op : Byte) : (table .minimal op).mnemonic = .invalid ↔
    op ∉ sourceOpcodes := by
  revert op
  decide +kernel

/-- The fetch gives an instruction with the opcode at PC, unless that opcode is unassigned. -/
theorem fetchInstr_cases (prof : TableProfile) (s : State) :
    ((table prof (Memory.readAt s.mem s.pc.toNat)).mnemonic = .invalid ∧
        ∃ e, fetchInstr prof s = .error e) ∨
      ∃ i, fetchInstr prof s = .ok i ∧ i.opcode = Memory.readAt s.mem s.pc.toNat ∧
        (table prof i.opcode).mnemonic = i.mnemonic := by
  rcases decode_three prof (Memory.read s.mem s.pc) (Memory.read s.mem (s.pc + 1#16))
    (Memory.read s.mem (s.pc + 2#16)) with ⟨h, hd⟩ | ⟨i, rest, hd⟩
  · exact .inl ⟨h, .unassigned (Memory.read s.mem s.pc), by simp only [fetchInstr, fetchBytes, hd]⟩
  · obtain ⟨ho, hm⟩ := decode_opcode hd
    exact .inr ⟨i, by simp only [fetchInstr, fetchBytes, hd], ho, by rw [ho]; exact hm⟩

/-- Everything a step does: it raises UnimplementedOpcode on an unassigned opcode, or runs an
instruction with the opcode at PC. -/
theorem step_cases {s t : State} (h : step s = .next t) : s.run = .running ∧
    ((unassignedAtPc s ∧ t = raiseUnimplemented s) ∨
      ∃ i : Instr, i.opcode = Memory.readAt s.mem s.pc.toNat ∧ exec i s = .next t) := by
  obtain ⟨hr, h⟩ := stepUnder_cases h
  refine ⟨hr, ?_⟩
  rcases fetchInstr_cases Config.tableProfile s with ⟨hi, e, he⟩ | ⟨i, he, ho, -⟩
  · rcases h with ⟨i, hi', -⟩ | ⟨-, ht⟩
    · rw [he] at hi'
      cases hi'
    · exact .inl ⟨(table_general_invalid _).1 hi, ht⟩
  · rcases h with ⟨i', hi', hx⟩ | ⟨⟨e, he'⟩, -⟩
    · rw [he] at hi'
      cases hi'
      exact .inr ⟨i, ho, hx⟩
    · rw [he] at he'
      cases he'

/-- A core that is not Running stays as it is. -/
theorem runFor_of_not_running {s : State} (h : s.run ≠ .running) (n : Nat) : runFor n s = s := by
  cases n with
  | zero => rfl
  | succ n =>
    unfold runFor step stepUnder
    cases hr : s.run <;> simp_all

/-- An induction over the steps of a run: what a step keeps, a run keeps. -/
theorem runFor_keeps {Inv : State → Prop} (hstep : ∀ s t, Inv s → step s = .next t → Inv t)
    (n : Nat) {s : State} (h : Inv s) : Inv (runFor n s) := by
  induction n generalizing s with
  | zero => exact h
  | succ n ih =>
    unfold runFor
    cases hs : step s with
    | next t => exact ih (hstep s t h hs)
    | fault r => exact h
    | refused r => exact h

/-- A run writes no memory. -/
theorem runFor_mem (n : Nat) (s : State) : (runFor n s).mem = s.mem :=
  runFor_keeps (Inv := fun t => t.mem = s.mem) (fun _ _ h e => (step_mem e).trans h) n rfl

end Sys2Proof.Machine
end

