-- ==== Sys2Proof/Laws/HostCalls.lean ====
section
/-! SUPPORT. The host's memory view of a session, and everything `load` does to memory. -/

namespace Sys2Proof.Machine

@[simp] theorem sessionMem_withSessionMem (m : Memory) (c : Session) :
    sessionMem (withSessionMem m c) = m := by
  cases c <;> rfl

/-- A session that meets the invariant has a canonical memory. -/
theorem wf_sessionMem {c : Session} (h : SessionInv c) : Memory.wf (sessionMem c) = true := by
  cases c with
  | constructed m => exact h
  | live s => exact h.1

/-- A canonical memory keeps the invariant. -/
theorem sessionInv_withSessionMem {c : Session} {m : Memory} (h : SessionInv c)
    (hm : Memory.wf m = true) : SessionInv (withSessionMem m c) := by
  cases c with
  | constructed _ => exact hm
  | live s => exact ⟨hm, h.2⟩

/-- An image that fits is loaded: the copy, then the vector over it (R186). -/
theorem loadImage_of_le {image : List Byte} (h : image.length ≤ Config.loadMax) (m : Memory) :
    loadImage image m = some (Memory.write
      (Memory.write (Memory.copy m Config.loadBase image) Config.resetVector
        (loByte Config.loadBase)) (Config.resetVector + 1#16) (hiByte Config.loadBase)) := by
  rw [loadImage, if_pos h, Memory.writeWord, if_neg (by decide)]

/-- An image that does not fit is not (R153). -/
theorem loadImage_of_gt {image : List Byte} (h : Config.loadMax < image.length) (m : Memory) :
    loadImage image m = none := by
  rw [loadImage, if_neg (by omega)]

end Sys2Proof.Machine
end

