-- ==== Sys2Proof/Laws/PerInstr.lean ====
section
/-! SUPPORT. Families of facts about every instruction as syntax, one lemma per constructor. -/

/-- The GENERAL table's entry of an instruction's opcode has its mnemonic, its mode and its length
(spec/30_encoding.md R50, R52, R54). -/
def Sys2Proof.Laws.TableEntryAgrees.Statement (i : Sys2Proof.Instr) : Prop :=
  (Sys2Proof.table .general i.opcode).mnemonic = i.mnemonic ∧
    (Sys2Proof.table .general i.opcode).mode = i.mode ∧
    (Sys2Proof.table .general i.opcode).length = (Sys2Proof.encode i).length

namespace Sys2Proof.Laws.TableEntryAgrees

theorem brk : Statement .brk := ⟨by decide, by decide, by decide⟩

theorem ldaIndirectX (b : Byte) : Statement (.ldaIndirectX b) := ⟨by rfl, by rfl, by rfl⟩

theorem ldaZeroPage (b : Byte) : Statement (.ldaZeroPage b) := ⟨by rfl, by rfl, by rfl⟩

theorem ldaImmediate (b : Byte) : Statement (.ldaImmediate b) := ⟨by rfl, by rfl, by rfl⟩

theorem tax : Statement .tax := ⟨by decide, by decide, by decide⟩

theorem ldaAbsolute (w : Word) : Statement (.ldaAbsolute w) := ⟨by rfl, by rfl, by rfl⟩

theorem ldaIndirectY (b : Byte) : Statement (.ldaIndirectY b) := ⟨by rfl, by rfl, by rfl⟩

theorem ldaZeroPageX (b : Byte) : Statement (.ldaZeroPageX b) := ⟨by rfl, by rfl, by rfl⟩

theorem ldaAbsoluteY (w : Word) : Statement (.ldaAbsoluteY w) := ⟨by rfl, by rfl, by rfl⟩

theorem ldaAbsoluteX (w : Word) : Statement (.ldaAbsoluteX w) := ⟨by rfl, by rfl, by rfl⟩

theorem inx : Statement .inx := ⟨by decide, by decide, by decide⟩

end Sys2Proof.Laws.TableEntryAgrees
end

