-- ==== Sys2Proof/Tests/Slice0.lean ====
section
/-! SUPPORT. The model's own tests: ill-formed instructions, words written out from the spec's
encodings, one-step vectors of spec/95_test_vectors.md (their ids in the comments), and for every
obligation with hypotheses a witness that meets them. -/

namespace Sys2Proof.Machine.Tests

/-! ## Helpers -/

/-- The vectors' start state: Running at 0x8000, an image there, no vector, everything else 0. -/
def st (image : List Byte) : State :=
  { State.reset with pc := 0x8000#16, mem := Memory.copy [] 0x8000#16 image }

/-- A byte poked into memory. -/
def poke (a : Word) (v : Byte) (s : State) : State := { s with mem := Memory.write s.mem a v }

/-- The outcome is a next state that satisfies `f`. -/
def nextIs (o : Host.Outcome State Fault Refusal) (f : State → Bool) : Bool :=
  match o with
  | .next t => f t
  | .fault _ => false
  | .refused _ => false

theorem of_nextIs {o : Host.Outcome State Fault Refusal} {P : State → Prop} [DecidablePred P]
    (h : nextIs o (fun t => decide (P t)) = true) : ∃ t, o = .next t ∧ P t := by
  cases o with
  | next t => exact ⟨t, rfl, of_decide_eq_true h⟩
  | fault r => cases h
  | refused r => cases h

/-! ## WellFormed: the one check, and what it refuses -/

theorem test_memory_form_is_ill_formed_under_minimal :
    Instr.wellFormed .minimal (.ldaZeroPage 0x42#8) = false ∧
      Instr.wellFormed .minimal (.ldaAbsoluteX 0x8009#16) = false ∧
      Instr.wellFormed .minimal (.ldaImmediate 0x42#8) = true ∧
      Instr.wellFormed .general (.ldaZeroPage 0x42#8) = true := by decide

/-! ## Decode: words written out from 30_encoding.md R54 (bits 7 to 0) and R59's examples -/

theorem test_decode_brk : decode .general [0b00000000#8] = .ok (.brk, []) := by decide

theorem test_decode_lda_indirect_x :
    decode .general [0b10100001#8, 0x01#8] = .ok (.ldaIndirectX 0x01#8, []) := by decide

theorem test_decode_lda_zero_page :
    decode .general [0b10100101#8, 0x42#8] = .ok (.ldaZeroPage 0x42#8, []) := by decide

theorem test_decode_lda_immediate :
    decode .general [0b10101001#8, 0x45#8] = .ok (.ldaImmediate 0x45#8, []) := by decide

theorem test_decode_tax : decode .general [0b10101010#8] = .ok (.tax, []) := by decide

theorem test_decode_lda_absolute :
    decode .general [0b10101101#8, 0x34#8, 0x12#8] = .ok (.ldaAbsolute 0x1234#16, []) := by decide

theorem test_decode_lda_indirect_y :
    decode .general [0b10110001#8, 0xF0#8] = .ok (.ldaIndirectY 0xF0#8, []) := by decide

theorem test_decode_lda_zero_page_x :
    decode .general [0b10110101#8, 0x53#8] = .ok (.ldaZeroPageX 0x53#8, []) := by decide

theorem test_decode_lda_absolute_y :
    decode .general [0b10111001#8, 0x34#8, 0x12#8] = .ok (.ldaAbsoluteY 0x1234#16, []) := by decide

theorem test_decode_lda_absolute_x :
    decode .general [0b10111101#8, 0x09#8, 0x80#8] = .ok (.ldaAbsoluteX 0x8009#16, []) := by decide

theorem test_decode_inx : decode .general [0b11101000#8] = .ok (.inx, []) := by decide

theorem test_decode_refuses_by_name :
    decode .general [0xEA#8, 0x00#8] = .error (.unassigned 0xEA#8) ∧
      decode .minimal [0xA5#8, 0x42#8] = .error (.unassigned 0xA5#8) ∧
      decode .general [0xAD#8, 0x34#8] = .error (.truncated 0xAD#8) ∧
      decode .general [] = .error .noBytes := by decide

theorem test_encode_low_byte_first : encode (.ldaAbsoluteX 0x8009#16) = [0xBD#8, 0x09#8, 0x80#8] := by
  decide

theorem test_decode_table_word : decodeTableWord 8 0xA9 = some (.ldaImmediate 0x00#8) ∧
    decodeTableWord 24 0x1234AD = some (.ldaAbsolute 0x1234#16) ∧
    decodeTableWord 8 0x1234AD = some (.ldaAbsolute 0x0000#16) ∧
    decodeTableWord 8 0xEA = none := by decide

theorem test_placed_instruction_runs_first :
    nextIs (step (State.reset.withFetchWord 16 0x80A9))
      (fun t => t.a == 0x80#8 && t.p == 0x80#8 && t.pc == 0x0002#16) = true := by decide

/-! ## Flags: vectors F9, F10, F12 -/

theorem test_setZN_keeps_reserved_bits : setZN 0xFF#8 0x00#8 = 0x7F#8 ∧
    setZN 0xFF#8 0x80#8 = 0xFD#8 ∧ setZN 0x7D#8 0xFF#8 = 0xFD#8 := by decide

/-! ## One step: vectors L, T, I, B, X, W -/

/-- L2, L3. -/
theorem test_lda_immediate :
    nextIs (step { st [0xA9#8, 0x00#8] with p := 0x80#8 })
      (fun t => t.a == 0x00#8 && t.p == 0x02#8 && t.pc == 0x8002#16) = true ∧
    nextIs (step { st [0xA9#8, 0x80#8] with p := 0x02#8 })
      (fun t => t.a == 0x80#8 && t.p == 0x80#8 && t.pc == 0x8002#16) = true := by decide

/-- L6. -/
theorem test_lda_zero_page : nextIs (step (poke 0x0042#16 0x80#8 (st [0xA5#8, 0x42#8])))
    (fun t => t.a == 0x80#8 && t.p == 0x80#8 && t.pc == 0x8002#16) = true := by decide

/-- L9: reads 0x0000, not 0x0100. -/
theorem test_lda_zero_page_x_wraps :
    nextIs (step { poke 0x0000#16 0x33#8 (poke 0x0100#16 0x44#8 (st [0xB5#8, 0xFF#8])) with
      x := 0x01#8 }) (fun t => t.a == 0x33#8 && t.p == 0x00#8 && t.pc == 0x8002#16) = true := by decide

/-- L11: reads its own opcode byte. -/
theorem test_lda_absolute_reads_own_opcode : nextIs (step (st [0xAD#8, 0x00#8, 0x80#8]))
    (fun t => t.a == 0xAD#8 && t.p == 0x80#8 && t.pc == 0x8003#16) = true := by decide

/-- L22, X5: the Absolute family at 0xFFFE. -/
theorem test_lda_absolute_at_fffe_faults :
    nextIs (step { poke 0xFFFE#16 0xAD#8 (st []) with pc := 0xFFFE#16, a := 0x11#8 })
      (fun t => t.a == 0x11#8 && t.p == 0x00#8 && t.pc == 0xFFFF#16 && t.run == .faulted &&
        t.fault == some (.wordReadAtTop 0xFFFE#16)) = true := by decide

/-- L14, L15: the data address wraps to 0x0000. -/
theorem test_lda_absolute_x :
    nextIs (step { poke 0x800C#16 0xC0#8 (st [0xBD#8, 0x09#8, 0x80#8]) with x := 0x03#8 })
      (fun t => t.a == 0xC0#8 && t.p == 0x80#8 && t.pc == 0x8003#16) = true ∧
    nextIs (step { poke 0x0000#16 0x5A#8 (st [0xBD#8, 0xFF#8, 0xFF#8]) with x := 0x01#8 })
      (fun t => t.a == 0x5A#8 && t.p == 0x00#8 && t.pc == 0x8003#16) = true := by decide

/-- M21 with L17's load: Y is added. -/
theorem test_lda_absolute_y :
    nextIs (step { poke 0x1300#16 0x7F#8 (st [0xB9#8, 0x34#8, 0x12#8]) with y := 0xCC#8 })
      (fun t => t.a == 0x7F#8 && t.p == 0x00#8 && t.pc == 0x8003#16) = true := by decide

/-- L19: the pointer at 0x00FF has its high byte at 0x0100. -/
theorem test_lda_indirect_x_pointer_at_end_of_page :
    nextIs (step { poke 0x00FF#16 0x78#8 (poke 0x0100#16 0x56#8 (poke 0x0000#16 0x99#8
      (poke 0x5678#16 0x11#8 (poke 0x9978#16 0x22#8 (st [0xA1#8, 0x00#8]))))) with
        x := 0xFF#8, p := 0x80#8 })
      (fun t => t.a == 0x11#8 && t.p == 0x00#8 && t.pc == 0x8002#16) = true := by decide

/-- M29: the sum of pointer word and Y wraps to 0x0001. -/
theorem test_lda_indirect_y_wraps :
    nextIs (step { poke 0x0010#16 0xFF#8 (poke 0x0011#16 0xFF#8 (poke 0x0001#16 0x42#8
      (st [0xB1#8, 0x10#8]))) with y := 0x02#8 })
      (fun t => t.a == 0x42#8 && t.pc == 0x8002#16) = true := by decide

/-- T2, T4. -/
theorem test_tax :
    nextIs (step { st [0xAA#8] with a := 0x00#8, x := 0x55#8, p := 0x80#8 })
      (fun t => t.x == 0x00#8 && t.p == 0x02#8 && t.pc == 0x8001#16) = true ∧
    nextIs (step { st [0xAA#8] with a := 0x80#8, x := 0x80#8, p := 0x02#8 })
      (fun t => t.a == 0x80#8 && t.x == 0x80#8 && t.p == 0x80#8) = true := by decide

/-- I7, I3. -/
theorem test_inx :
    nextIs (step { st [0xE8#8] with a := 0xFF#8, x := 0xFF#8, p := 0x80#8 })
      (fun t => t.a == 0xFF#8 && t.x == 0x00#8 && t.p == 0x02#8) = true ∧
    nextIs (step { st [0xE8#8] with x := 0x7F#8 })
      (fun t => t.x == 0x80#8 && t.p == 0x80#8 && t.pc == 0x8001#16) = true := by decide

/-- B4: BRK at 0xFFFF. B5: registers kept. -/
theorem test_brk :
    nextIs (step { st [] with pc := 0xFFFF#16, p := 0x80#8, a := 0xC0#8, x := 0xC1#8 })
      (fun t => t.run == .halted && t.pc == 0x0000#16 && t.p == 0x80#8 && t.a == 0xC0#8 &&
        t.x == 0xC1#8 && t.fault == none) = true := by decide

/-- X1's second step. -/
theorem test_unassigned_opcode_faults :
    nextIs (step { st [0xA9#8, 0x01#8, 0xEA#8, 0x00#8] with pc := 0x8002#16, a := 0x01#8 })
      (fun t => t.run == .faulted && t.pc == 0x8003#16 && t.a == 0x01#8 &&
        t.fault == some (.unimplementedOpcode 0xEA#8 0x8002#16)) = true := by decide

/-- W2: an Absolute operand at 0x0000 and 0x0001, no fault. -/
theorem test_absolute_operand_past_the_wrap :
    nextIs (step { poke 0xFFFF#16 0xAD#8 (poke 0x0000#16 0x10#8 (poke 0x0010#16 0x7F#8 (st [])))
      with pc := 0xFFFF#16 }) (fun t => t.a == 0x7F#8 && t.pc == 0x0002#16 && t.run == .running) = true := by
  decide

/-! ## The resolver, the reads, the cost and the text -/

/-- M31, M33, M36. -/
theorem test_relative : relativeTarget 0x8001#16 0xFE#8 = 0x8000#16 ∧
    relativeTarget 0x8001#16 0x80#8 = 0x7F82#16 ∧ relativeTarget 0x0001#16 0x80#8 = 0xFF82#16 := by
  decide

/-- M8, M38, M37. -/
theorem test_modes_without_opcode :
    resolve 0x8000#16 .zeroPageY { st [0x00#8, 0xF0#8] with pc := 0x8001#16, y := 0x20#8 } =
      .operand (.addr 0x0010#16 false) ∧
    resolve 0x8000#16 .accumulator (st []) = .operand .acc ∧
    resolve 0x8000#16 .implied (st []) = .operand .noOperand := by decide

/-- R36, R44: the reads of LDA (0x01,X) with X = 0xEF and the pointer of M23. -/
theorem test_step_reads :
    stepReads .general { poke 0x00F0#16 0x34#8 (poke 0x00F1#16 0x12#8 (st [0xA1#8, 0x01#8])) with
      x := 0xEF#8 } = [0x8000#16, 0x8001#16, 0x00F0#16, 0x00F1#16, 0x1234#16] ∧
    stepReads .general { poke 0xFFFE#16 0xAD#8 (st []) with pc := 0xFFFE#16 } = [0xFFFE#16] := by decide

/-- R191: M15 crosses, M14 does not. -/
theorem test_cycle_cost :
    cycleCost .general { st [0xBD#8, 0xF0#8, 0x12#8] with x := 0x20#8 } = 5 ∧
    cycleCost .general { st [0xBD#8, 0x09#8, 0x80#8] with x := 0x03#8 } = 4 := by decide

/-- R59's examples. -/
theorem test_assembly_text : assemblyText (.ldaImmediate 0x45#8) = "LDA #0x45".toList ∧
    assemblyText (.ldaAbsoluteX 0x8009#16) = "LDA 0x8009,X".toList ∧
    assemblyText (.ldaIndirectY 0xF0#8) = "LDA (0xF0),Y".toList := by decide

/-! ## The host: H1, H3, H11, H12 -/

theorem test_load_then_reset :
    (hostCall .inspect (hostCall .reset (hostCall (.load [0xA9#8, 0x45#8, 0x00#8]) construct).2).2).1 =
      .registers 0x00#8 0x00#8 0x00#8 0x00#8 0x8000#16 := by decide

theorem test_run_empty_image :
    (hostCall (.run 1) (hostCall .reset (hostCall (.load []) construct).2).2).1 = .runOk := by decide

theorem test_host_words :
    (hostCall (.writeWord 0xFFFF#16 0x1234#16) construct).1 = .error .wordAccessAtTop ∧
    (hostCall (.read 0x1235#16) (hostCall (.writeWord 0x1234#16 0xABCD#16) construct).2).1 =
      .byte 0xAB#8 := by decide

/-! ## Witnesses: for each obligation with hypotheses, a state and operands that meet them -/

theorem witness_CanonicalMemoryIsDeterminedByItsBytes :
    Memory.wf [(0, 0x01#8), (65535, 0xFF#8)] = true ∧
      ∀ a : Word, Memory.read [(0, 0x01#8), (65535, 0xFF#8)] a =
        Memory.read (Memory.write (Memory.write [] 0xFFFF#16 0xFF#8) 0x0000#16 0x01#8) a :=
  ⟨by decide, fun _ => rfl⟩

theorem witness_WordReadIsLittleEndian :
    (0xFFFF#16 : Word) = 0xFFFF#16 ∧ (0xFFFE#16 : Word) ≠ 0xFFFF#16 ∧
      Memory.readWord [(65534, 0x34#8), (65535, 0x12#8)] 0xFFFE#16 = some 0x1234#16 := by decide

theorem witness_HostWordWriteThenRead :
    (0xFFFF#16 : Word) = 0xFFFF#16 ∧ (0xFFFE#16 : Word) ≠ 0xFFFF#16 ∧
      (0 : Nat) ≠ (0xFFFE#16 : Word).toNat ∧ (0 : Nat) ≠ (0xFFFE#16 : Word).toNat + 1 := by decide

/-- Each caller of `setZN` and each that is none. -/
theorem witness_FlagUpdateIsMasked :
    (∃ t, exec (.ldaImmediate 0x80#8) (st []) = .next t ∧ t.p = 0x80#8) ∧
    (∃ t, exec .inx { st [] with x := 0xFF#8 } = .next t ∧ t.p = 0x02#8) ∧
    (∃ t, exec .brk { st [] with p := 0x80#8 } = .next t ∧ t.p = 0x80#8) ∧
    (∃ t, exec (.ldaAbsolute 0x0000#16) { st [] with pc := 0xFFFE#16, p := 0x80#8 } = .next t ∧
      t.p = 0x80#8) ∧ readsOperandWord (.ldaAbsolute 0x0000#16) = true ∧
    (∃ t, exec (.ldaAbsolute 0x0000#16) { st [] with pc := 0xFFFF#16 } = .next t ∧ t.p = 0x02#8) ∧
    (∃ t, exec .tax { st [] with a := 0xC0#8, p := 0x7F#8 } = .next t ∧ t.p = 0xFD#8) ∧
    (∃ t, step { st [0xEA#8] with p := 0x80#8 } = .next t ∧ t.p = 0x80#8 ∧ t.run = .faulted) :=
  ⟨of_nextIs (by decide), of_nextIs (by decide), of_nextIs (by decide), of_nextIs (by decide),
    by decide, of_nextIs (by decide), of_nextIs (by decide), of_nextIs (by decide)⟩

/-- Both clauses, at 0xFFFE and beside it on each side. -/
theorem witness_LdaAbsoluteResult : (State.reset).pc ≠ 0xFFFE#16 ∧
    { State.reset with pc := 0xFFFF#16 }.pc ≠ 0xFFFE#16 ∧
    { State.reset with pc := 0xFFFD#16 }.pc ≠ 0xFFFE#16 ∧
    { State.reset with pc := 0xFFFE#16 }.pc = 0xFFFE#16 := by decide

theorem witness_LdaAbsoluteXResult :
    nextIs (exec (.ldaAbsoluteX (mkWord 0xFF#8 0xFF#8)) { st [] with pc := 0xFFFF#16, x := 0x01#8 })
      (fun t => t.run == .running && t.pc == 0x0002#16) = true ∧
    nextIs (exec (.ldaAbsoluteX (mkWord 0xFF#8 0xFF#8)) { st [] with pc := 0xFFFE#16 })
      (fun t => t.run == .faulted && t.pc == 0xFFFF#16) = true := by decide

theorem witness_LdaAbsoluteYResult :
    nextIs (exec (.ldaAbsoluteY (mkWord 0xFF#8 0xFF#8)) { st [] with pc := 0xFFFD#16, y := 0x01#8 })
      (fun t => t.run == .running && t.pc == 0x0000#16) = true ∧
    nextIs (exec (.ldaAbsoluteY (mkWord 0xFF#8 0xFF#8)) { st [] with pc := 0xFFFE#16 })
      (fun t => t.run == .faulted && t.pc == 0xFFFF#16) = true := by decide

theorem witness_EveryLoadIsExecLda :
    (Instr.mnemonic (.ldaImmediate 0x00#8) = .lda ∧
      readsOperandWord (.ldaImmediate 0x00#8) = false) ∧
    (Instr.mnemonic (.ldaAbsolute 0x0000#16) = .lda ∧
      readsOperandWord (.ldaAbsolute 0x0000#16) = true ∧ (st []).pc ≠ 0xFFFE#16) := by decide

theorem witness_LoadFrame :
    (∃ t, exec (.ldaIndirectX 0x00#8) (st []) = .next t ∧ t.run = .running) ∧
    (∃ t, exec (.ldaAbsolute 0x0000#16) { st [] with pc := 0xFFFE#16 } = .next t ∧
      t.run = .faulted) := ⟨of_nextIs (by decide), of_nextIs (by decide)⟩

theorem witness_TransferFrame : (∃ t, exec .tax (st []) = .next t ∧ t.p = 0x02#8) ∧
    (∃ t, exec .inx (st []) = .next t ∧ t.x = 0x01#8) :=
  ⟨of_nextIs (by decide), of_nextIs (by decide)⟩

theorem witness_BreakFrame : ∃ t, exec .brk (st []) = .next t ∧ t.run = .halted :=
  of_nextIs (by decide)

theorem witness_DecodeOfEncode : Instr.wellFormed .general (.ldaAbsoluteY 0xFF00#16) = true ∧
    Instr.wellFormed .minimal .inx = true := by decide

theorem witness_EncodeOfDecode :
    decode .minimal [0xA9#8, 0xFF#8, 0xEA#8] = .ok (.ldaImmediate 0xFF#8, [0xEA#8]) := by decide

/-- Lengths 1, 2 and 3. -/
theorem witness_LengthComesFromTheOpcodeAlone :
    decode .general (0xAA#8 :: []) = .ok (.tax, []) ∧
    decode .general (0xA9#8 :: [0x00#8]) = .ok (.ldaImmediate 0x00#8, []) ∧
    decode .general (0xAD#8 :: [0x00#8, 0x01#8, 0x02#8]) = .ok (.ldaAbsolute 0x0100#16, [0x02#8]) := by
  decide

theorem witness_ResolverAbsoluteModes : { State.reset with pc := 0xFFFF#16 }.pc = 0xFFFF#16 ∧
    { State.reset with pc := 0xFFFE#16 }.pc ≠ 0xFFFF#16 := by decide

/-- The three forms that pay for a page crossing, BD at 0xFFFF with its operand past the wrap. -/
theorem witness_PageCrossCost :
    (∃ s : State, Memory.readAt s.mem s.pc.toNat = 0xBD#8 ∧ s.pc ≠ 0xFFFE#16 ∧
      s.pc = 0xFFFF#16 ∧ wordAt s.mem ((s.pc.toNat + 1) % 65536) = 0xFF) ∧
    (∃ s : State, Memory.readAt s.mem s.pc.toNat = 0xB9#8 ∧ s.pc ≠ 0xFFFE#16 ∧
      wordAt s.mem ((s.pc.toNat + 1) % 65536) = 0x1234) ∧
    (∃ s : State, Memory.readAt s.mem s.pc.toNat = 0xB1#8 ∧
      wordAt s.mem (Memory.readAt s.mem ((s.pc.toNat + 1) % 65536)).toNat = 0x1234) :=
  ⟨⟨{ st [] with pc := 0xFFFF#16, mem := [(0, 0xFF#8), (65535, 0xBD#8)] }, by decide⟩,
    ⟨st [0xB9#8, 0x34#8, 0x12#8], by decide⟩,
    ⟨{ st [] with mem := [(0xF0, 0x34#8), (0xF1, 0x12#8), (0x8000, 0xB1#8), (0x8001, 0xF0#8)] },
      by decide⟩⟩

theorem witness_StepRunsDecodedInstruction : (st [0xE8#8]).run = .running ∧
    decode Config.tableProfile (fetchBytes (st [0xE8#8])) = .ok (.inx, [0x00#8, 0x00#8]) := by decide

/-- An instruction whose operand bytes stand past the wrap. -/
theorem witness_StepRunsTheBytesAtPc :
    (∀ (k : Nat) (v : Byte), (encode (.ldaImmediate 0x80#8))[k]? = some v →
      Memory.readAt [(0, 0x80#8), (65535, 0xA9#8)] ((65535 + k) % 65536) = v) ∧
    ({ State.reset with pc := 0xFFFF#16, mem := [(0, 0x80#8), (65535, 0xA9#8)] } : State).run =
      .running := by
  refine ⟨fun k v h => ?_, rfl⟩
  match k, h with
  | 0, h => cases h; rfl
  | 1, h => cases h; rfl

/-- The lowest and the highest unassigned opcode. -/
theorem witness_UnassignedOpcodeFaults :
    ((st [0x01#8]).run = .running ∧ unassignedAtPc (st [0x01#8])) ∧
      (st [0xFF#8]).run = .running ∧ unassignedAtPc (st [0xFF#8]) :=
  ⟨⟨rfl, by unfold unassignedAtPc; decide⟩, rfl, by unfold unassignedAtPc; decide⟩

theorem witness_NoStepUnlessRunning : { State.reset with run := .halted }.run = .halted ∧
    { State.reset with run := .faulted }.run = .faulted := by decide

theorem witness_RunningStepHasNextState : State.reset.run = .running := rfl

/-- A fault, a load, a transfer, and a step that stays Running, of each length. -/
theorem witness_StepChangesOnly :
    (∃ t, step (st [0xEA#8]) = .next t ∧ t.fault ≠ (st [0xEA#8]).fault) ∧
    (∃ t, step (st [0xA9#8, 0x01#8]) = .next t ∧ t.a ≠ (st [0xA9#8, 0x01#8]).a ∧ t.run = .running) ∧
    (∃ t, step (st [0xE8#8]) = .next t ∧ t.x ≠ (st [0xE8#8]).x ∧ t.run = .running) ∧
    (∃ t, step (st [0xAD#8]) = .next t ∧ t.p ≠ (st [0xAD#8]).p ∧ t.run = .running) ∧
    (∃ t, step { poke 0xFFFE#16 0xAD#8 (st []) with pc := 0xFFFE#16 } = .next t ∧
      t.fault = some (.wordReadAtTop 0xFFFE#16) ∧ t.pc = 0xFFFF#16) ∧
    (∃ t, step (st []) = .next t ∧ t.run = .halted ∧ t.pc = 0x8001#16) ∧
    ((st [0xEA#8]).run = .faulted ↔ (st [0xEA#8]).fault ≠ none) :=
  ⟨of_nextIs (by decide), of_nextIs (by decide), of_nextIs (by decide), of_nextIs (by decide),
    of_nextIs (by decide), of_nextIs (by decide), by decide⟩

theorem witness_HowAStepEnds : (∃ t, step (st []) = .next t ∧ t.run = .halted) ∧
    (∃ t, step (st [0x01#8]) = .next t ∧ t.run = .faulted) ∧
    (∃ t, step { poke 0xFFFE#16 0xB9#8 (st []) with pc := 0xFFFE#16 } = .next t ∧
      t.run = .faulted) :=
  ⟨of_nextIs (by decide), of_nextIs (by decide), of_nextIs (by decide)⟩

theorem witness_FaultsArePrecise :
    ((st [0xEA#8]).fault = none ∧ ∃ t, step (st [0xEA#8]) = .next t ∧
      t.fault = some (.unimplementedOpcode 0xEA#8 0x8000#16)) ∧
    ∃ t, step { poke 0xFFFE#16 0xBD#8 (st []) with pc := 0xFFFE#16 } = .next t ∧
      t.fault = some (.wordReadAtTop 0xFFFE#16) :=
  ⟨⟨rfl, of_nextIs (by decide)⟩, of_nextIs (by decide)⟩

theorem witness_WordReadAtTopOnlyAtFFFE : { st [] with pc := 0xFFFE#16 }.fault = none ∧
    (∃ t, exec (.ldaAbsoluteX 0x0000#16) { st [] with pc := 0xFFFE#16 } = .next t ∧
      t.fault ≠ none) ∧
    ∃ t, exec (.ldaZeroPage 0x00#8) { st [] with pc := 0xFFFE#16 } = .next t ∧ t.fault = none :=
  ⟨rfl, of_nextIs (by decide), of_nextIs (by decide)⟩

theorem witness_MinimalProfileAgreesOrFaults :
    Memory.readAt (st [0xE8#8]).mem (st [0xE8#8]).pc.toNat ∉ memoryLoadOpcodes ∧
    Memory.readAt (st [0xBD#8]).mem (st [0xBD#8]).pc.toNat ∈ memoryLoadOpcodes ∧
    (st [0xBD#8]).run = .running := by decide

theorem witness_StepRefinesThePseudocode :
    (st [0xB1#8, 0xFF#8]).run = .running ∧ (st [0xEA#8]).run = .running := ⟨rfl, rfl⟩

theorem witness_StatusIsNeverRead :
    ∃ t, step { st [0xE8#8] with p := 0xFF#8 } = .next t ∧ t.p ≠ 0xFF#8 := of_nextIs (by decide)

/-- Two states with other registers. -/
theorem witness_MemoryDecidesTheRun :
    SameBytes (st [0xE8#8]) { st [0xE8#8] with a := 0x11#8, x := 0xFF#8, y := 0x02#8, p := 0xFF#8 } ∧
    { st [0xE8#8] with a := 0x11#8 }.pc = (st [0xE8#8]).pc ∧
    { st [0xE8#8] with a := 0x11#8 }.run = (st [0xE8#8]).run := ⟨fun _ => rfl, rfl, rfl⟩

/-- Another memory that agrees on the reads of TAX. -/
theorem witness_StepDependsOnlyOnItsReads :
    (∃ t, step (st [0xAA#8]) = .next t ∧ t.run = .running) ∧
      ∀ a, a ∈ stepReads .general (st [0xAA#8]) →
        Memory.read (st [0xAA#8, 0x77#8]).mem a = Memory.read (st [0xAA#8]).mem a := by
  refine ⟨of_nextIs (by decide), fun a ha => ?_⟩
  have h : stepReads .general (st [0xAA#8]) = [0x8000#16] := by decide
  rw [h, List.mem_singleton] at ha
  subst ha
  decide

theorem witness_YModesWithoutY : State.reset.y = 0x00#8 := rfl

theorem witness_ResetMeetsInvariant :
    Memory.wf { st [0xA9#8, 0x45#8] with run := .faulted, y := 0x01#8 }.mem = true := by decide

theorem witness_StepKeepsInvariant : StateInv (st [0xA9#8, 0x80#8]) ∧
    ∃ t, step (st [0xA9#8, 0x80#8]) = .next t ∧ t.p = 0x80#8 :=
  ⟨by decide, of_nextIs (by decide)⟩

theorem witness_HostCallsKeepInvariant :
    SessionInv construct ∧ SessionInv (.live (st [0xEA#8])) := ⟨rfl, by decide⟩

/-- The empty image and the longest. -/
theorem witness_LoadPlacesTheImage : ([] : List Byte).length ≤ 0x8000 ∧
    (List.replicate 0x8000 0xAA#8).length ≤ 0x8000 := by
  refine ⟨Nat.zero_le _, ?_⟩
  rw [List.length_replicate]

/-- The shortest image that does not fit. -/
theorem witness_OversizedLoadIsRefused : 0x8000 < (List.replicate 0x8001 0xAA#8).length := by
  rw [List.length_replicate]
  decide

theorem witness_LoadThenReset : ([0xA9#8, 0x45#8, 0x00#8] : List Byte).length ≤ 0x8000 := by decide

theorem witness_EndedRunStaysEnded : (runFor 2 (st [0xA9#8, 0x45#8, 0x00#8])).run ≠ .running := by
  decide

/-- The three answers of `run`. -/
theorem witness_RunReturnsOkOrErr : StateInv (st [0x00#8]) ∧ (st [0x00#8]).run = .running ∧
    hostCall (.run 1) (.live (st [0x00#8])) = (.runOk, .live (runFor 1 (st [0x00#8]))) ∧
    (runFor 2 (st [0xA9#8, 0x45#8])).a = 0x45#8 ∧
    (hostCall (.run 1) (.live (st [0xEA#8]))).1 =
      .runErr (some (.unimplementedOpcode 0xEA#8 0x8000#16)) ∧
    (hostCall (.run 1) (.live (st [0xAA#8]))).1 = .runUnfinished := by decide

theorem witness_RunIsRefusedUnlessRunning :
    (∀ s, construct = .live s → s.run ≠ .running) ∧
      ∀ s, Session.live { State.reset with run := .halted } = .live s → s.run ≠ .running := by
  refine ⟨fun s h => (by cases h), fun s h => ?_⟩
  cases h
  decide

theorem witness_RefusedCallsHaveNoEffect :
    (hostCall (.run 5) construct).1 = .error .runRefused ∧
    (hostCall .inspect construct).1 = .error .noRegisters ∧
    (hostCall (.readWord 0xFFFF#16) construct).1 = .error .wordAccessAtTop := by decide

theorem witness_HostWritesNoRegister : HostCall.load [] ≠ .reset ∧
    ∀ fuel, HostCall.load [] ≠ .run fuel := ⟨by decide, fun _ h => (by cases h)⟩

/-- Every clause, with five different register values (70_reset_and_hazards.md R187). -/
theorem witness_HostAccessesReachTheCore :
    hostCall .inspect (.live { State.reset with
        a := 0x01#8, x := 0x02#8, y := 0x03#8, p := 0x80#8, pc := 0x1234#16 }) =
      (.registers 0x01#8 0x02#8 0x03#8 0x80#8 0x1234#16, .live { State.reset with
        a := 0x01#8, x := 0x02#8, y := 0x03#8, p := 0x80#8, pc := 0x1234#16 }) ∧
    (hostCall .inspect construct).1 = .error .noRegisters ∧
    (hostCall (.read 0xFFFF#16) (hostCall (.write 0xFFFF#16 0x42#8) construct).2).1 =
      .byte 0x42#8 := by decide

end Sys2Proof.Machine.Tests
end

namespace Sys2Proof.Machine

/-! ## LDA: what a form loads, and that neither A nor P decides it (spec/42_lda.md) -/

/-- An instruction is one to three bytes long (spec/30_encoding.md R50), so its length as the amount
PC moves by (R75) loses nothing. -/
theorem toNat_ofNat_encode_length (i : Instr) :
    (BitVec.ofNat 16 (encode i).length).toNat = (encode i).length := by
  cases i <;> rfl

/-- Every form of LDA whose operand word can be read is `ExecLDA` on its operand's value, with PC
moved on by the instruction's length (R118, R75). -/
theorem exec_lda_eq_execLoad {i : Instr} {s : State} (hlda : i.mnemonic = .lda)
    (htop : readsOperandWord i = true → s.pc ≠ 0xFFFE#16) :
    ∃ v, operandValue s (ldaOperand i s) = some v ∧
      exec i s = execLoad (BitVec.ofNat 16 (encode i).length) v s := by
  cases i with
  | brk => cases hlda
  | tax => cases hlda
  | inx => cases hlda
  | ldaImmediate b => exact ⟨_, rfl, rfl⟩
  | ldaZeroPage b => exact ⟨_, rfl, rfl⟩
  | ldaZeroPageX b => exact ⟨_, rfl, rfl⟩
  | ldaIndirectX b => exact ⟨_, rfl, rfl⟩
  | ldaIndirectY b => exact ⟨_, rfl, rfl⟩
  | ldaAbsolute w => exact ⟨_, rfl, execLoadAbsolute_load (htop rfl) _⟩
  | ldaAbsoluteX w => exact ⟨_, rfl, execLoadAbsolute_load (htop rfl) _⟩
  | ldaAbsoluteY w => exact ⟨_, rfl, execLoadAbsolute_load (htop rfl) _⟩

/-- A form of LDA whose operand word can be read loads its operand's value (R118). -/
theorem exec_lda_loads_operandValue {i : Instr} {s : State} {v : Byte} (hlda : i.mnemonic = .lda)
    (htop : readsOperandWord i = true → s.pc ≠ 0xFFFE#16)
    (hv : operandValue s (ldaOperand i s) = some v) :
    ∃ t, exec i s = .next t ∧ LoadedA s t v (encode i).length := by
  obtain ⟨v', hv', hexec⟩ := exec_lda_eq_execLoad hlda htop
  obtain rfl : v = v' := Option.some.inj (hv.symm.trans hv')
  simpa only [hexec, toNat_ofNat_encode_length] using
    execLoad_spec (BitVec.ofNat 16 (encode i).length) v s

/-- No form of LDA has register A as its operand or computes an address from A or P, so the operand's
value is the same under any other A and P (R118). -/
theorem operandValue_ldaOperand_of_a_p (i : Instr) (s : State) (a p : Byte) :
    operandValue { s with a := a, p := p } (ldaOperand i { s with a := a, p := p }) =
      operandValue s (ldaOperand i s) := by
  cases i <;> rfl

/-! ## The obligations -/

/-- Settles O14: the load of the operand's value, applied to the state and to the state with another
A and P, in which the operand has the same value. -/
theorem everyLoadIsExecLda : Obligations.EveryLoadIsExecLda := by
  intro i s hlda htop
  obtain ⟨v, hv, -⟩ := exec_lda_eq_execLoad hlda htop
  obtain ⟨t, ht, hload⟩ := exec_lda_loads_operandValue hlda htop hv
  obtain rfl : t.a = v := hload.1
  refine ⟨t, ht, hv, hload, fun a p => ?_⟩
  exact exec_lda_loads_operandValue hlda htop ((operandValue_ldaOperand_of_a_p i s a p).trans hv)

/-- Settles O6: LDA immediate is the load of its literal by a two-byte instruction. -/
theorem ldaImmediateResult : Obligations.LdaImmediateResult := by
  intro b s
  have hexec : exec (.ldaImmediate b) s = execLoad 2#16 b s := rfl
  exact ⟨rfl, hexec ▸ execLoad_spec 2#16 b s⟩

end Sys2Proof.Machine

namespace Sys2Proof.Machine

/-! ## TAX and INX: the byte written to X, and the flags of the incremented byte (spec/43_tax_inx.md) -/

/-- TAX is a write of A to X by a one-byte instruction (R130, R75). -/
theorem exec_tax (s : State) : exec .tax s = .next (advancePc 1#16 (writeX s.a s)) := rfl

/-- INX is a write of X + 1 to X by a one-byte instruction (R131, R75). -/
theorem exec_inx (s : State) : exec .inx s = .next (advancePc 1#16 (writeX (s.x + 1#8) s)) := rfl

/-- A byte's increment wraps to zero from 0xFF only (R131, R77). -/
theorem byte_add_one_eq_zero_iff (b : Byte) : b + 1#8 = 0x00#8 ↔ b = 0xFF#8 := by
  constructor <;> intro h <;> bv_omega

/-- A byte's increment has bit 7 exactly from 0x7F to 0xFE: from 0xFF it wraps (R131). -/
theorem le_toNat_byte_add_one_iff (b : Byte) :
    128 ≤ (b + 1#8).toNat ↔ 0x7F ≤ b.toNat ∧ b.toNat ≤ 0xFE := by
  have hwrap : (b + 1#8).toNat = (b.toNat + 1) % 256 := BitVec.toNat_add b 1#8
  omega

/-- The flags of an incremented byte, in terms of the byte before it (R131). -/
theorem flagsFrom_add_one {p p' b : Byte} (h : FlagsFrom p p' (b + 1#8)) :
    (zFlag p' = true ↔ b = 0xFF#8) ∧ (nFlag p' = true ↔ 0x7F ≤ b.toNat ∧ b.toNat ≤ 0xFE) := by
  obtain ⟨hz, hn, -⟩ := h
  exact ⟨hz.trans (byte_add_one_eq_zero_iff b), hn.trans (le_toNat_byte_add_one_iff b)⟩

/-- Settles O15: TAX is the write of the old A to X. -/
theorem taxResult : Obligations.TaxResult := fun s =>
  ⟨rfl, _, exec_tax s, wroteX_writeX s.a s⟩

/-- Settles O16: INX is the write of the incremented X, whose flags are read back through the
increment to the old X. -/
theorem inxResult : Obligations.InxResult := by
  intro s
  have hwrote := wroteX_writeX (s.x + 1#8) s
  have ⟨_, hflags, _⟩ := hwrote
  exact ⟨rfl, _, exec_inx s, hwrote, BitVec.toNat_add s.x 1#8, flagsFrom_add_one hflags⟩

end Sys2Proof.Machine

namespace Sys2Proof.Machine

/-! ## BRK: the advance of PC past its byte, and the halt (spec/44_brk.md) -/

/-- BRK is a halt after the fetch's advance of PC (R140, R75). -/
theorem exec_brk (s : State) : exec .brk s = .next (halt (fetchAdvance s)) := rfl

/-- The fetch's advance moves PC one on modulo 65536 (R75). -/
theorem pcMoved_fetchAdvance (s : State) : PcMoved s (fetchAdvance s) 1 := pcMoved_advancePc 1#16 s

/-- Only a Running core has a next state (spec/40_fetch_dispatch.md R71). -/
theorem step_ne_next_of_not_running {s : State} (h : s.run ≠ .running) (u : State) :
    step s ≠ .next u := fun hstep =>
  h (step_cases hstep).1

/-- Settles O17: BRK is the halt of the advanced state. The advance moves PC only and the halt writes
RUN only, and a Halted core has no next state. -/
theorem brkResult : Obligations.BrkResult := by
  intro s
  have hpc : PcMoved s (halt (fetchAdvance s)) 1 := pcMoved_fetchAdvance s
  have hbytes : SameBytes s (halt (fetchAdvance s)) := fun _ => rfl
  have hstop : ∀ u, step (halt (fetchAdvance s)) ≠ .next u :=
    step_ne_next_of_not_running (by simp)
  exact ⟨rfl, _, exec_brk s, rfl, hpc, rfl, rfl, rfl, rfl, rfl, hbytes, hstop⟩

end Sys2Proof.Machine

namespace Sys2Proof.Machine

/-! ## Encoding: the decoder undoes the encoder, and the encoder the decoder
(spec/30_encoding.md) -/

/-- No instruction has the sentinel's mnemonic (R54, R56). -/
theorem mnemonic_ne_invalid (i : Instr) : i.mnemonic ≠ .invalid := by
  cases i <;> nofun

/-- A profile has exactly the instructions whose opcode it assigns (R54, R55). -/
theorem wellFormed_iff_assigned (prof : TableProfile) (i : Instr) :
    i.wellFormed prof = true ↔ (table prof i.opcode).mnemonic ≠ .invalid := by
  have h : i.wellFormed prof = decide ((table prof i.opcode).mnemonic ≠ .invalid) := by
    cases prof <;> cases i <;> rfl
  rw [h, decide_eq_true_iff]

/-- GENERAL has every instruction (R55). -/
theorem wellFormed_general (i : Instr) : i.wellFormed .general = true := by
  cases i <;> rfl

/-- The GENERAL table's entry of every instruction (R54). -/
theorem table_general_entry (i : Instr) : Laws.TableEntryAgrees.Statement i := by
  cases i <;> exact ⟨rfl, rfl, rfl⟩

/-- A profile that has an instruction gives its opcode the entry GENERAL does (R55). -/
theorem table_eq_general_of_wellFormed {prof : TableProfile} {i : Instr}
    (h : i.wellFormed prof = true) : table prof i.opcode = table .general i.opcode := by
  cases prof with
  | general => rfl
  | minimal =>
    cases i with
    | brk | ldaImmediate _ | tax | inx => rfl
    | ldaIndirectX _ | ldaZeroPage _ | ldaAbsolute _ | ldaIndirectY _ | ldaZeroPageX _
    | ldaAbsoluteY _ | ldaAbsoluteX _ => cases h

/-- The entry of an instruction of the profile: its mnemonic, mode and length (R52, R54). -/
theorem table_entry {prof : TableProfile} {i : Instr} (h : i.wellFormed prof = true) :
    (table prof i.opcode).mnemonic = i.mnemonic ∧ (table prof i.opcode).mode = i.mode ∧
      (table prof i.opcode).length = (encode i).length := by
  rw [table_eq_general_of_wellFormed h]
  exact table_general_entry i

/-- The operand bytes of a form of LDA give the form back in its mode, whatever follows (R50). -/
theorem decodeLda_operandBytes {i : Instr} (hlda : i.mnemonic = .lda) (op : Byte)
    (rest : List Byte) : decodeLda op i.mode (i.operandBytes ++ rest) = .ok (i, rest) := by
  have word : ∀ (mk : Word → Instr) (w : Word),
      takeWord op mk (loByte w :: hiByte w :: rest) = .ok (mk w, rest) := fun mk w => by
    simp only [takeWord, mkWord_hiByte_loByte]
  cases i with
  | brk | tax | inx => cases hlda
  | ldaIndirectX _ | ldaZeroPage _ | ldaImmediate _ | ldaIndirectY _ | ldaZeroPageX _ => rfl
  | ldaAbsolute w | ldaAbsoluteY w | ldaAbsoluteX w => exact word _ w

/-- A mode takes exactly the operand bytes of the form of LDA it selects (R50). -/
theorem decodeLda_ok {op : Byte} {mode : AddressingMode} {bs rest : List Byte} {i : Instr}
    (h : decodeLda op mode bs = .ok (i, rest)) : bs = i.operandBytes ++ rest := by
  have word : ∀ lo hi : Byte, lo :: hi :: rest =
      [loByte (mkWord hi lo), hiByte (mkWord hi lo)] ++ rest := fun lo hi => by
    rw [loByte_mkWord, hiByte_mkWord]; rfl
  cases mode with
  | immediate | zeroPage | zeroPageX | indirectX | indirectY =>
    obtain ⟨b, rfl, rfl⟩ := takeByte_ok h
    rfl
  | absolute | absoluteX | absoluteY =>
    obtain ⟨lo, hi, rfl, rfl⟩ := takeWord_ok h
    exact word lo hi
  | implied | accumulator | zeroPageY | relative | none => cases h

/-- No operand bytes make LDA's opcode an unassigned one. -/
theorem decodeLda_ne_unassigned (op op' : Byte) (mode : AddressingMode) (bs : List Byte) :
    decodeLda op mode bs ≠ .error (.unassigned op') := by
  intro h
  cases mode with
  | immediate | zeroPage | zeroPageX | indirectX | indirectY =>
    cases bs with
    | nil | cons _ _ => cases h
  | absolute | absoluteX | absoluteY =>
    match bs, h with
    | [], h | [_], h | _ :: _ :: _, h => cases h
  | implied | accumulator | zeroPageY | relative | none => cases h

/-- A byte is refused as unassigned exactly when its entry is the sentinel (R56). -/
theorem decode_unassigned_iff (prof : TableProfile) (op : Byte) (rest : List Byte) :
    decode prof (op :: rest) = .error (.unassigned op) ↔
      (table prof op).mnemonic = .invalid := by
  cases hm : (table prof op).mnemonic <;> simp [decode, hm, decodeLda_ne_unassigned]

/-- Settles O21: the table's entry of the opcode leads back to the mnemonic and the mode, and the
mode takes exactly the operand bytes. -/
theorem decodeOfEncode : Obligations.DecodeOfEncode := by
  intro prof i rest hwf
  obtain ⟨hmnem, hmode, -⟩ := table_entry hwf
  simp only [encode, List.cons_append, decode, hmnem, hmode]
  cases i with
  | brk | tax | inx => rfl
  | ldaIndirectX _ | ldaZeroPage _ | ldaImmediate _ | ldaAbsolute _ | ldaIndirectY _
  | ldaZeroPageX _ | ldaAbsoluteY _ | ldaAbsoluteX _ => exact decodeLda_operandBytes rfl _ rest

/-- Settles O22: the decoded instruction has the first byte as its opcode, and its operand bytes are
those its mode took. -/
theorem encodeOfDecode : Obligations.EncodeOfDecode := by
  intro prof bytes rest i h
  cases bytes with
  | nil => cases h
  | cons op tail =>
    obtain ⟨rfl, hmnem⟩ := decode_opcode h
    have hwf : i.wellFormed prof = true := by
      rw [wellFormed_iff_assigned, hmnem]
      exact mnemonic_ne_invalid i
    refine ⟨?_, hwf⟩
    have htail : tail = i.operandBytes ++ rest := by
      simp only [decode, hmnem] at h
      cases hi : i.mnemonic <;> rw [hi] at h
      case lda => exact decodeLda_ok h
      case invalid => cases h
      all_goals cases h; rfl
    rw [htail]; rfl

/-- An instruction is one to three bytes long (R50). -/
theorem encode_length_bounds (i : Instr) : 1 ≤ (encode i).length ∧ (encode i).length ≤ 3 := by
  cases i <;> simp [encode, Instr.operandBytes]

/-- Settles O24: the bytes are an encoding and the rest, and the entry's length is the
encoding's. -/
theorem lengthComesFromTheOpcodeAlone : Obligations.LengthComesFromTheOpcodeAlone := by
  intro prof op tail rest i h
  obtain ⟨hbytes, hwf⟩ := encodeOfDecode prof _ rest i h
  obtain ⟨rfl, -⟩ := decode_opcode h
  obtain ⟨-, -, hlen⟩ := table_entry hwf
  rw [hlen]
  exact ⟨by rw [hbytes, List.length_append], encode_length_bounds i⟩

/-- Settles O23: a refused opcode is one outside the profile's lists of assigned bytes. -/
theorem unassignedOpcodesAreRefused : Obligations.UnassignedOpcodesAreRefused := by
  intro op rest
  have hop := op.isLt
  rw [decode_unassigned_iff, decode_unassigned_iff, table_general_invalid, table_minimal_invalid]
  simp only [sourceOpcodes, memoryLoadOpcodes, List.mem_cons, List.not_mem_nil, or_false,
    ← BitVec.toNat_inj, BitVec.toNat_ofNat]
  omega

/-- Settles O25: each word is looked up in the table and its operand bytes taken. -/
theorem sampleWordsDecode : Obligations.SampleWordsDecode := by
  unfold Obligations.SampleWordsDecode
  decide

end Sys2Proof.Machine

namespace Sys2Proof.Machine

/-! ## Memory: the canonical list is the array of bytes (spec/20_memory.md) -/

/-- A canonical memory from address `lo` on lists nothing below `lo`. -/
theorem readAt_of_lt {m : Memory} {lo k : Nat} (h : Memory.wfFrom lo m = true) (hk : k < lo) :
    Memory.readAt m k = 0x00#8 := by
  induction m generalizing lo with
  | nil => rfl
  | cons c m ih =>
    obtain ⟨hlo, -, -, hm⟩ := wfFrom_cons.1 h
    rw [Memory.readAt, if_neg (by omega), ih hm (by omega)]

/-- A canonical memory lists nothing from 65536 on. -/
theorem readAt_of_memorySize_le {m : Memory} {lo k : Nat} (h : Memory.wfFrom lo m = true)
    (hk : Config.memorySize ≤ k) : Memory.readAt m k = 0x00#8 := by
  induction m generalizing lo with
  | nil => rfl
  | cons c m ih =>
    obtain ⟨-, hsize, -, hm⟩ := wfFrom_cons.1 h
    rw [Memory.readAt, if_neg (by omega), ih hm]

/-- Canonical memories that read the same start at the same address: the one that starts later
reads 0x00 at the other's first address. -/
theorem le_of_readAt_eq {a a' : Nat} {v v' : Byte} {m m' : Memory} {lo : Nat}
    (h : Memory.wfFrom lo ((a, v) :: m) = true) (h' : Memory.wfFrom lo ((a', v') :: m') = true)
    (heq : ∀ k, Memory.readAt ((a, v) :: m) k = Memory.readAt ((a', v') :: m') k) : a' ≤ a := by
  by_contra hlt
  obtain ⟨-, -, hv, -⟩ := wfFrom_cons.1 h
  obtain ⟨-, hs', hv', hm'⟩ := wfFrom_cons.1 h'
  have hzero : Memory.readAt ((a', v') :: m') a = 0x00#8 :=
    readAt_of_lt (wfFrom_cons.2 ⟨le_rfl, hs', hv', hm'⟩) (by omega)
  exact hv (by rw [← hzero, ← heq a, Memory.readAt, if_pos rfl])

/-- Canonical memories that read the same everywhere are the same list (log 20). -/
theorem wfFrom_ext {m m' : Memory} {lo : Nat} (h : Memory.wfFrom lo m = true)
    (h' : Memory.wfFrom lo m' = true) (heq : ∀ k, Memory.readAt m k = Memory.readAt m' k) :
    m = m' := by
  induction m generalizing lo m' with
  | nil =>
    cases m' with
    | nil => rfl
    | cons c m' =>
      obtain ⟨-, -, hv, -⟩ := wfFrom_cons.1 h'
      exact absurd (by simpa [Memory.readAt] using (heq c.1).symm) hv
  | cons c m ih =>
    cases m' with
    | nil =>
      obtain ⟨-, -, hv, -⟩ := wfFrom_cons.1 h
      exact absurd (by simpa [Memory.readAt] using heq c.1) hv
    | cons c' m' =>
      obtain ⟨a, v⟩ := c
      obtain ⟨a', v'⟩ := c'
      obtain rfl : a = a' :=
        le_antisymm (le_of_readAt_eq h' h fun k => (heq k).symm) (le_of_readAt_eq h h' heq)
      obtain rfl : v = v' := by simpa [Memory.readAt] using heq a
      obtain ⟨-, -, -, hm⟩ := wfFrom_cons.1 h
      obtain ⟨-, -, -, hm'⟩ := wfFrom_cons.1 h'
      rw [ih hm hm' fun k => ?_]
      by_cases hk : a = k
      · subst hk
        rw [readAt_of_lt hm (by omega), readAt_of_lt hm' (by omega)]
      · simpa [Memory.readAt, hk] using heq k

/-- The word read at an address below the top stands for `wordAt` (R32, R33). -/
theorem mkWord_read_toNat {a : Word} (h : a ≠ 0xFFFF#16) (m : Memory) :
    (mkWord (Memory.read m (a + 1#16)) (Memory.read m a)).toNat = wordAt m a.toNat := by
  rw [mkWord_toNat, read_eq, read_eq, add_one_toNat h, wordAt]

/-- Everything a word write does below the top: the low byte at its address, the high byte after it
(R34). -/
theorem writeWord_spec {a : Word} (h : a ≠ 0xFFFF#16) (m : Memory) (w : Word) :
    ∃ m', Memory.writeWord m a w = some m' ∧ ∀ n, Memory.readAt m' n =
      if n = a.toNat then loByte w else if n = a.toNat + 1 then hiByte w
      else Memory.readAt m n := by
  refine ⟨_, by rw [Memory.writeWord, if_neg h], fun n => ?_⟩
  rw [readAt_write, readAt_write, add_one_toNat h]
  grind

/-- Settles O1: the address of a byte is its number. -/
theorem writeThenReadByte : Obligations.WriteThenReadByte := by
  intro m a b v
  simp only [read_eq, readAt_write, BitVec.toNat_inj, eq_comm]

/-- Settles O2: the bytes below 65536 are all a canonical list holds. -/
theorem canonicalMemoryIsDeterminedByItsBytes :
    Obligations.CanonicalMemoryIsDeterminedByItsBytes := by
  intro m m' h h' heq
  refine wfFrom_ext h h' fun k => ?_
  by_cases hk : k < Config.memorySize
  · have hread := heq (BitVec.ofNat 16 k)
    rwa [read_eq, read_eq, BitVec.toNat_ofNat, Nat.mod_eq_of_lt (show k < 2 ^ 16 from hk)] at hread
  · rw [readAt_of_memorySize_le h (by omega), readAt_of_memorySize_le h' (by omega)]

/-- Settles O3: the bytes at an address below the top and after it. -/
theorem wordReadIsLittleEndian : Obligations.WordReadIsLittleEndian := fun m a =>
  ⟨fun h => by rw [Memory.readWord, if_pos h],
    fun h => ⟨_, readWord_eq h, mkWord_read_toNat h m⟩⟩

/-- Settles O4: at 0xFFFF neither accessor answers; elsewhere the word read back is made of the two
bytes the write placed. -/
theorem hostWordWriteThenRead : Obligations.HostWordWriteThenRead := by
  intro c a w
  constructor
  · rintro rfl
    exact ⟨rfl, rfl⟩
  · intro h
    obtain ⟨m, hm, hbytes⟩ := writeWord_spec h (sessionMem c) w
    have hlo : Memory.readAt m a.toNat = loByte w := by rw [hbytes, if_pos rfl]
    have hhi : Memory.readAt m (a.toNat + 1) = hiByte w := by
      rw [hbytes, if_neg (by omega), if_pos rfl]
    have hword : Memory.readWord m a = some w := by
      rw [readWord_eq h, read_eq, read_eq, add_one_toNat h, hlo, hhi, mkWord_hiByte_loByte]
    refine ⟨withSessionMem m c, by simp only [hostCall, hostWriteWord, hm], ?_, ?_, ?_, ?_⟩
    · simp only [hostCall, hostReadWord, sessionMem_withSessionMem, hword]
    · rw [sessionMem_withSessionMem, hlo, loByte_toNat]
    · rw [sessionMem_withSessionMem, hhi, hiByte_toNat]
    · intro n hn hn'
      rw [sessionMem_withSessionMem, hbytes, if_neg hn, if_neg hn']

end Sys2Proof.Machine

namespace Sys2Proof.Machine

/-! ## The flag update as one expression (spec/40_fetch_dispatch.md R76) -/

/-- `setZN` is the spec's one expression. -/
theorem setZN_eq_masked (p v : Byte) : setZN p v =
    (p &&& 0x7D#8) ||| (if v = 0x00#8 then 0x02#8 else 0x00#8) ||| (v &&& 0x80#8) := by
  simp only [setZN, setN, setZ]
  split_ifs <;>
    (apply BitVec.eq_of_getLsbD_eq
     intro i hi
     interval_cases i <;> simp_all)

/-- No result sets both flags: 0x00 has no bit 7. -/
theorem not_both_flags_setZN (p v : Byte) :
    ¬ (zFlag (setZN p v) = true ∧ nFlag (setZN p v) = true) := by
  rw [zFlag_setZN, nFlag_setZN]
  rintro ⟨hz, hn⟩
  rw [of_decide_eq_true hz] at hn
  cases hn

/-- Settles O5: a load and a write of X apply the update to their result, a halt and a fault leave
P. -/
theorem flagUpdateIsMasked : Obligations.FlagUpdateIsMasked := by
  refine ⟨fun p v => ⟨setZN_eq_masked p v, flagsFrom_setZN p v, not_both_flags_setZN p v⟩, ?_⟩
  intro i s t h
  obtain ⟨hlda, htop, v, e⟩ | ⟨hword, hpc, e⟩ | ⟨rfl, e⟩ | ⟨rfl, e⟩ | ⟨rfl, e⟩ := exec_cases i s <;>
    (rw [e] at h; cases h)
  · refine ⟨fun _ _ => rfl, ?_, ?_, fun hw hp => absurd hp (htop hw), rfl⟩
    · rintro (rfl | rfl) <;> cases hlda
    · rintro rfl; cases hlda
  · refine ⟨fun _ htop => absurd hpc (htop hword), ?_, fun _ => rfl, fun _ _ => rfl, rfl⟩
    rintro (rfl | rfl) <;> cases hword
  · exact ⟨nofun, fun _ => rfl, nofun, nofun, rfl⟩
  · exact ⟨nofun, fun _ => rfl, nofun, nofun, rfl⟩
  · exact ⟨nofun, by simp, fun _ => rfl, nofun, rfl⟩

end Sys2Proof.Machine

namespace Sys2Proof.Machine

/-! ## The memory forms of LDA: which byte each one loads (spec/42_lda.md R111 to R117) -/

/-- A form of the Absolute family loads from its address, and raises WordReadAtTop with its opcode
at 0xFFFE (R113 to R115, R152; D5, log 6). -/
theorem execLoadAbsolute_result (ea : Word) (s : State) :
    (s.pc ≠ 0xFFFE#16 → ∃ t, execLoadAbsolute ea s = .next t ∧
      LoadedA s t (Memory.readAt s.mem ea.toNat) 3) ∧
    (s.pc = 0xFFFE#16 → ∃ t, execLoadAbsolute ea s = .next t ∧
      FaultTaken s t (.wordReadAtTop 0xFFFE#16)) := by
  constructor <;> intro h
  · rw [execLoadAbsolute_load h]
    exact execLoad_spec 3#16 _ s
  · rw [execLoadAbsolute_raise h, h]
    exact ⟨_, rfl, faultTaken_raise _ s⟩

/-- The zero-page pointer's word as the claims write it (R102). -/
theorem pointerWord_eq_wordAt (m : Memory) (b : Byte) :
    (pointerWord m b).toNat = wordAt m b.toNat :=
  pointerWord_toNat m b

/-- Settles O7: the address is the operand byte. -/
theorem ldaZeroPageResult : Obligations.LdaZeroPageResult := by
  intro b s
  refine ⟨rfl, ?_⟩
  rw [← zext16_toNat b]
  exact execLoad_spec 2#16 (Memory.read s.mem (zeroPageEa b)) s

/-- Settles O8: the address is the sum of the operand byte and X in 8 bits. -/
theorem ldaZeroPageXResult : Obligations.LdaZeroPageXResult := by
  intro b s
  refine ⟨rfl, ?_⟩
  rw [← zeroPageIndexedEa_toNat]
  exact execLoad_spec 2#16 (Memory.read s.mem (zeroPageIndexedEa b s.x)) s

/-- The bytes of an instruction of format F3, low byte first (spec/30_encoding.md R50, R53). -/
theorem operandBytes_mkWord (hi lo : Byte) :
    [loByte (mkWord hi lo), hiByte (mkWord hi lo)] = [lo, hi] := by
  rw [loByte_mkWord, hiByte_mkWord]

/-- Settles O9: the address is the operand word. -/
theorem ldaAbsoluteResult : Obligations.LdaAbsoluteResult := by
  intro hi lo s
  rw [← mkWord_toNat]
  exact ⟨congrArg _ (operandBytes_mkWord hi lo), execLoadAbsolute_result _ s⟩

/-- Settles O10: the address is the sum of the operand word and X in 16 bits. -/
theorem ldaAbsoluteXResult : Obligations.LdaAbsoluteXResult := by
  intro hi lo s
  rw [← mkWord_toNat, ← absoluteIndexedEa_toNat]
  exact ⟨congrArg _ (operandBytes_mkWord hi lo), execLoadAbsolute_result _ s⟩

/-- Settles O11: the address is the sum of the operand word and Y in 16 bits. -/
theorem ldaAbsoluteYResult : Obligations.LdaAbsoluteYResult := by
  intro hi lo s
  rw [← mkWord_toNat, ← absoluteIndexedEa_toNat]
  exact ⟨congrArg _ (operandBytes_mkWord hi lo), execLoadAbsolute_result _ s⟩

/-- Settles O12: the address is the word of the pointer at the sum of the operand byte and X in 8
bits. -/
theorem ldaIndirectXResult : Obligations.LdaIndirectXResult := by
  intro b s
  refine ⟨rfl, ?_⟩
  have hptr : (b + s.x).toNat = (b.toNat + s.x.toNat) % 256 := BitVec.toNat_add b s.x
  rw [← hptr, ← pointerWord_eq_wordAt]
  exact execLoad_spec 2#16 (Memory.read s.mem (indirectXEa s.mem b s.x)) s

/-- Settles O13: the address is the sum of the pointer's word and Y in 16 bits. -/
theorem ldaIndirectYResult : Obligations.LdaIndirectYResult := by
  intro b s
  refine ⟨rfl, ?_⟩
  rw [← pointerWord_eq_wordAt, ← absoluteIndexedEa_toNat]
  exact execLoad_spec 2#16 (Memory.read s.mem (indirectYEa s.mem b s.y)) s

end Sys2Proof.Machine

namespace Sys2Proof.Machine

/-! ## Frames: what an instruction leaves unchanged -/

/-- Settles O18: a load writes A, Z, N and PC, and the fault of the Absolute family FAULT, RUN and
PC. -/
theorem loadFrame : Obligations.LoadFrame := by
  intro i s t hlda h
  obtain ⟨-, -, v, e⟩ | ⟨hword, hpc, e⟩ | ⟨rfl, -⟩ | ⟨rfl, -⟩ | ⟨rfl, -⟩ := exec_cases i s
  · obtain rfl := Host.Outcome.next.inj (e.symm.trans h)
    exact ⟨rfl, rfl, reservedBits_setZN s.p v, fun _ => rfl, .inl ⟨rfl, rfl⟩⟩
  · obtain rfl := Host.Outcome.next.inj (e.symm.trans h)
    exact ⟨rfl, rfl, rfl, fun _ => rfl, .inr ⟨hword, hpc, rfl, rfl⟩⟩
  all_goals cases hlda

/-- Settles O19: a write of X writes X, Z, N and PC. -/
theorem transferFrame : Obligations.TransferFrame := by
  intro i s t hi h
  have frame : ∀ v : Byte, exec i s = .next (advancePc 1#16 (writeX v s)) →
      t.a = s.a ∧ t.y = s.y ∧ reservedBits t.p = reservedBits s.p ∧ t.run = s.run ∧
        t.fault = s.fault ∧ ∀ a : Word, Memory.read t.mem a = Memory.read s.mem a := by
    intro v e
    obtain rfl := Host.Outcome.next.inj (e.symm.trans h)
    exact ⟨rfl, rfl, reservedBits_setZN s.p v, rfl, rfl, fun _ => rfl⟩
  rcases hi with rfl | rfl
  · exact frame _ (exec_tax s)
  · exact frame _ (exec_inx s)

/-- Settles O20: the halt leaves a core that has no step, so every run from it stays there. -/
theorem breakFrame : Obligations.BreakFrame := by
  intro n s t h
  obtain rfl : halt (fetchAdvance s) = t := Host.Outcome.next.inj ((exec_brk s).symm.trans h)
  rw [runFor_of_not_running (by simp)]
  exact ⟨rfl, rfl, rfl, rfl, rfl, rfl, pcMoved_fetchAdvance s, fun _ => rfl⟩

/-- Settles O39: of the five things an instruction can do, only the fault of the Absolute family
writes FAULT. -/
theorem wordReadAtTopOnlyAtFFFE : Obligations.WordReadAtTopOnlyAtFFFE := by
  intro i s t hnone h
  have quiet : t.fault = s.fault → ¬ (readsOperandWord i = true ∧ s.pc = 0xFFFE#16) →
      (t.fault ≠ none ↔ readsOperandWord i = true ∧ s.pc = 0xFFFE#16) ∧
        (t.fault ≠ none → FaultTaken s t (.wordReadAtTop 0xFFFE#16)) := fun hf hno =>
    have ht : t.fault = none := hf.trans hnone
    ⟨⟨fun hne => absurd ht hne, fun hyes => absurd hyes hno⟩, fun hne => absurd ht hne⟩
  obtain ⟨-, htop, v, e⟩ | ⟨hword, hpc, e⟩ | ⟨rfl, e⟩ | ⟨rfl, e⟩ | ⟨rfl, e⟩ := exec_cases i s <;>
    obtain rfl := Host.Outcome.next.inj (e.symm.trans h)
  · exact quiet rfl fun ⟨hword, hpc⟩ => htop hword hpc
  · have hraised := faultTaken_raise (.wordReadAtTop s.pc) s
    rw [hpc] at hraised ⊢
    exact ⟨⟨fun _ => ⟨hword, rfl⟩, fun _ => nofun⟩, fun _ => hraised⟩
  · exact quiet rfl nofun
  · exact quiet rfl nofun
  · exact quiet rfl nofun

end Sys2Proof.Machine

namespace Sys2Proof.Machine

/-! ## The resolver: each mode's address as a sum of natural numbers
(spec/41_addressing_modes.md) -/

/-- The operand of an indexed mode: its address, and the marker of a changed page (R98 to R100). -/
theorem indexedOperand_spec (base : Word) (index : Byte) : ∃ (ea : Word) (c : Bool),
    indexedOperand base index = .addr ea c ∧ ea.toNat = (base.toNat + index.toNat) % 65536 ∧
      (c = true ↔ ea.toNat / 256 ≠ base.toNat / 256) :=
  ⟨_, _, rfl, absoluteIndexedEa_toNat base index, pageCrossed_iff base _⟩

/-- At 0xFFFF there is no word at PC to resolve (R97; D5, log 6). -/
theorem resolveWord_top {s : State} (h : s.pc = 0xFFFF#16) (opcAddr : Word) (mk : Word → Operand) :
    resolveWord opcAddr s mk = .raises (.wordReadAtTop opcAddr) := by
  obtain ⟨-, e⟩ | ⟨hpc, -⟩ := resolveWord_cases opcAddr s mk
  · exact e
  · exact absurd h hpc

/-- Below 0xFFFF the word at PC is the mode's operand word (R97, R33). -/
theorem resolveWord_below {s : State} (h : s.pc ≠ 0xFFFF#16) (opcAddr : Word)
    (mk : Word → Operand) : resolveWord opcAddr s mk =
      .operand (mk (mkWord (Memory.read s.mem (s.pc + 1#16)) (Memory.read s.mem s.pc))) := by
  obtain ⟨hpc, -⟩ | ⟨-, e⟩ := resolveWord_cases opcAddr s mk
  · exact absurd hpc h
  · exact e

/-- Settles O26: the byte at PC, as it is or as an address with its sum in 8 bits. -/
theorem resolverPageZeroModes : Obligations.ResolverPageZeroModes := fun _ s =>
  ⟨⟨_, rfl, rfl⟩, ⟨_, rfl, zext16_toNat _⟩, ⟨_, rfl, zeroPageIndexedEa_toNat _ s.x⟩,
    ⟨_, rfl, zeroPageIndexedEa_toNat _ s.y⟩⟩

/-- Settles O27: the three modes read one word at PC, and the indexed two add to it. -/
theorem resolverAbsoluteModes : Obligations.ResolverAbsoluteModes := by
  intro opcAddr s
  constructor <;> intro h
  · exact ⟨resolveWord_top h _ _, resolveWord_top h _ _, resolveWord_top h _ _⟩
  · obtain ⟨eaX, cX, hX, hXea, hXc⟩ := indexedOperand_spec
      (mkWord (Memory.read s.mem (s.pc + 1#16)) (Memory.read s.mem s.pc)) s.x
    obtain ⟨eaY, cY, hY, hYea, hYc⟩ := indexedOperand_spec
      (mkWord (Memory.read s.mem (s.pc + 1#16)) (Memory.read s.mem s.pc)) s.y
    exact ⟨_, eaX, eaY, cX, cY, resolveWord_below h _ _, hX ▸ resolveWord_below h _ _,
      hY ▸ resolveWord_below h _ _, mkWord_read_toNat h s.mem, hXea, hXc, hYea, hYc⟩

/-- Settles O28: both modes read the word of a zero-page pointer, and Indirect_Y adds Y to it. -/
theorem resolverIndirectModes : Obligations.ResolverIndirectModes := by
  intro opcAddr s
  obtain ⟨eaY, c, hY, hYea, hYc⟩ :=
    indexedOperand_spec (pointerWord s.mem (Memory.read s.mem s.pc)) s.y
  have hptr : (Memory.read s.mem s.pc + s.x).toNat =
      ((Memory.readAt s.mem s.pc.toNat).toNat + s.x.toNat) % 256 := BitVec.toNat_add _ s.x
  exact ⟨_, _, eaY, c, rfl, hptr ▸ pointerWord_eq_wordAt s.mem _, pointerWord_eq_wordAt s.mem _,
    congrArg _ hY, hYea, hYc⟩

/-- A sign-extended byte is its signed value modulo 65536 (spec/00_scope.md R7). -/
theorem sext16_toNat (b : Byte) : ((sext16 b).toNat : Int) = b.toInt % 65536 := by
  have h : (sext16 b).toNat = (b.toInt % 65536).toNat := BitVec.toNat_ofInt b.toInt
  omega

/-- Settles O29: the sum in 16 bits is the sum of the signed offset modulo 65536. -/
theorem resolverRelativeMode : Obligations.ResolverRelativeMode := by
  intro opcAddr s
  have hsext := sext16_toNat (Memory.read s.mem s.pc)
  refine ⟨_, rfl, ?_⟩
  simp only [relativeTarget, BitVec.toNat_add, BitVec.toNat_ofNat]
  rw [read_eq] at hsext ⊢
  omega

end Sys2Proof.Machine

namespace Sys2Proof.Machine

/-! ## The step: what it runs and what it does (spec/40_fetch_dispatch.md R71 to R74) -/

/-- The byte fetched `k` places after the opcode, modulo 65536 (spec/30_encoding.md R50; D4,
log 5). -/
theorem fetchBytes_getElem? (s : State) {k : Nat} (hk : k < 3) :
    (fetchBytes s)[k]? = some (Memory.readAt s.mem ((s.pc.toNat + k) % 65536)) := by
  have hpc := s.pc.isLt
  interval_cases k
  · simp [fetchBytes, read_eq, Nat.mod_eq_of_lt hpc]
  · simp [fetchBytes, read_eq, BitVec.toNat_add]
  · simp [fetchBytes, read_eq, BitVec.toNat_add]

/-- The fetch gives the instruction that the bytes at PC decode to. -/
theorem fetchInstr_of_decode {prof : TableProfile} {s : State} {i : Instr} {rest : List Byte}
    (h : decode prof (fetchBytes s) = .ok (i, rest)) : fetchInstr prof s = .ok i := by
  simp only [fetchInstr, h]

/-- A Running core with an unassigned opcode at PC raises UnimplementedOpcode, under either profile
(R151). -/
theorem stepUnder_of_unassigned {prof : TableProfile} {s : State} (hr : s.run = .running)
    (h : (table prof (Memory.readAt s.mem s.pc.toNat)).mnemonic = .invalid) :
    stepUnder prof s = .next (raiseUnimplemented s) := by
  obtain ⟨-, e, he⟩ | ⟨i, -, ho, hm⟩ := fetchInstr_cases prof s
  · exact stepUnder_of_no_fetch hr he
  · rw [ho, h] at hm
    exact absurd hm.symm (mnemonic_ne_invalid i)

/-- The fault of an unassigned opcode in the terms of the claims (R151). -/
theorem faultTaken_raiseUnimplemented (s : State) : FaultTaken s (raiseUnimplemented s)
    (.unimplementedOpcode (Memory.readAt s.mem s.pc.toNat) s.pc) :=
  faultTaken_raise _ s

/-- Settles O31: the fetch and the dispatch of a Running core. -/
theorem stepRunsDecodedInstruction : Obligations.StepRunsDecodedInstruction :=
  fun _ _ _ hr hd => stepUnder_of_fetch hr (fetchInstr_of_decode hd)

/-- Settles O32: the three bytes fetched begin with the encoding at PC, so it decodes. -/
theorem stepRunsTheBytesAtPc : Obligations.StepRunsTheBytesAtPc := by
  intro s i hr hbytes
  obtain ⟨rest, hrest⟩ : encode i <+: fetchBytes s := by
    refine List.prefix_iff_getElem?.2 fun k hk => ?_
    obtain ⟨-, hlen⟩ := encode_length_bounds i
    rw [fetchBytes_getElem? s (by omega), hbytes k _ (List.getElem?_eq_getElem hk)]
  refine stepRunsDecodedInstruction s i rest hr ?_
  rw [← hrest]
  exact decodeOfEncode .general i rest (wellFormed_general i)

/-- Settles O33: the opcode has no entry under GENERAL. -/
theorem unassignedOpcodeFaults : Obligations.UnassignedOpcodeFaults := fun s hr hop =>
  ⟨_, stepUnder_of_unassigned hr ((table_general_invalid _).2 hop),
    faultTaken_raiseUnimplemented s⟩

/-- Settles O34: RUN alone refuses the step. -/
theorem noStepUnlessRunning : Obligations.NoStepUnlessRunning := fun n s =>
  ⟨fun h => ⟨by simp only [step, stepUnder, h], runFor_of_not_running (by simp [h]) n⟩,
    fun h => ⟨by simp only [step, stepUnder, h], runFor_of_not_running (by simp [h]) n⟩⟩

/-- Settles O35: the step raises UnimplementedOpcode or executes, and both answer. -/
theorem runningStepHasNextState : Obligations.RunningStepHasNextState := by
  intro s hr
  obtain ⟨-, e, he⟩ | ⟨i, hi, -⟩ := fetchInstr_cases Config.tableProfile s
  · exact ⟨_, stepUnder_of_no_fetch hr he⟩
  · obtain ⟨t, ht⟩ := exec_next i s
    exact ⟨t, (stepUnder_of_fetch hr hi).trans ht⟩

/-- What a step does, by the opcode at PC: the two faults, a load of some byte, the two writes of X,
and the halt. -/
inductive StepEffect (s : State) : State → Prop where
  | unassigned (hop : unassignedAtPc s) : StepEffect s (raiseUnimplemented s)
  | topWord (hop : Memory.readAt s.mem s.pc.toNat ∈ absoluteOpcodes) (hpc : s.pc = 0xFFFE#16) :
    StepEffect s (raise (.wordReadAtTop 0xFFFE#16) (fetchAdvance s))
  | load (v : Byte)
    (hop : (table .general (Memory.readAt s.mem s.pc.toNat)).mnemonic = .lda)
    (htop : Memory.readAt s.mem s.pc.toNat ∈ absoluteOpcodes → s.pc ≠ 0xFFFE#16) :
    StepEffect s (advancePc
      (BitVec.ofNat 16 (table .general (Memory.readAt s.mem s.pc.toNat)).length) (loadA v s))
  | tax (hop : Memory.readAt s.mem s.pc.toNat = 0xAA#8) :
    StepEffect s (advancePc 1#16 (writeX s.a s))
  | inx (hop : Memory.readAt s.mem s.pc.toNat = 0xE8#8) :
    StepEffect s (advancePc 1#16 (writeX (s.x + 1#8) s))
  | brk (hop : Memory.readAt s.mem s.pc.toNat = 0x00#8) : StepEffect s (halt (fetchAdvance s))

/-- The instructions that read an operand word are those with an Absolute-family opcode. -/
theorem readsOperandWord_iff (i : Instr) :
    readsOperandWord i = true ↔ i.opcode ∈ absoluteOpcodes := by
  have h : readsOperandWord i = decide (i.opcode ∈ absoluteOpcodes) := by cases i <;> rfl
  rw [h, decide_eq_true_iff]

/-- Everything a step does. -/
theorem step_effect {s t : State} (h : step s = .next t) : StepEffect s t := by
  obtain ⟨-, ⟨hop, rfl⟩ | ⟨i, ho, hexec⟩⟩ := step_cases h
  · exact .unassigned hop
  obtain ⟨hlda, htop, v, e⟩ | ⟨hword, hpc, e⟩ | ⟨rfl, e⟩ | ⟨rfl, e⟩ | ⟨rfl, e⟩ := exec_cases i s <;>
    obtain rfl := Host.Outcome.next.inj (e.symm.trans hexec)
  · obtain ⟨hmnem, -, hlen⟩ := table_general_entry i
    rw [ho] at hmnem hlen
    rw [readsOperandWord_iff, ho] at htop
    rw [← hlen]
    exact .load v (hmnem.trans hlda) htop
  · rw [readsOperandWord_iff, ho] at hword
    rw [hpc]
    exact .topWord hword hpc
  · exact .tax ho.symm
  · exact .inx ho.symm
  · exact .brk ho.symm

/-- An opcode with an entry is not unassigned (R56). -/
theorem not_unassignedAtPc {s : State}
    (h : (table .general (Memory.readAt s.mem s.pc.toNat)).mnemonic ≠ .invalid) :
    ¬ unassignedAtPc s := fun hop => h ((table_general_invalid _).2 hop)

/-- An opcode with an entry, not of the Absolute family at 0xFFFE, takes no fault (R151, R152). -/
theorem no_fault_at_pc {s : State}
    (hop : (table .general (Memory.readAt s.mem s.pc.toNat)).mnemonic ≠ .invalid)
    (htop : Memory.readAt s.mem s.pc.toNat ∈ absoluteOpcodes → s.pc ≠ 0xFFFE#16) :
    ¬ (unassignedAtPc s ∨
      Memory.readAt s.mem s.pc.toNat ∈ absoluteOpcodes ∧ s.pc = 0xFFFE#16) := by
  rintro (h | ⟨habs, hpc⟩)
  · exact not_unassignedAtPc hop h
  · exact htop habs hpc

/-- Settles O37: the effect that halts is the one of 0x00, the effects that fault are the first two,
and each opcode has one effect. -/
theorem howAStepEnds : Obligations.HowAStepEnds := by
  intro s t h
  obtain ⟨hr, -⟩ := step_cases h
  have goesOn : t.run = s.run →
      (table .general (Memory.readAt s.mem s.pc.toNat)).mnemonic ≠ .invalid →
      (Memory.readAt s.mem s.pc.toNat ∈ absoluteOpcodes → s.pc ≠ 0xFFFE#16) →
      Memory.readAt s.mem s.pc.toNat ≠ 0x00#8 →
      (t.run = .halted ↔ Memory.readAt s.mem s.pc.toNat = 0x00#8) ∧
      (t.run = .faulted ↔ unassignedAtPc s ∨
        Memory.readAt s.mem s.pc.toNat ∈ absoluteOpcodes ∧ s.pc = 0xFFFE#16) := by
    intro hrun hop htop h0
    simp [hrun, hr, h0, no_fault_at_pc hop htop]
  cases step_effect h with
  | unassigned hop =>
    refine ⟨⟨nofun, fun h0 => ?_⟩, fun _ => .inl hop, fun _ => rfl⟩
    exact absurd hop (not_unassignedAtPc (by rw [h0]; decide))
  | topWord hop hpc =>
    refine ⟨⟨nofun, fun h0 => ?_⟩, fun _ => .inr ⟨hop, hpc⟩, fun _ => rfl⟩
    exact absurd (h0 ▸ hop) (by decide)
  | load v hop htop =>
    refine goesOn rfl (by rw [hop]; nofun) htop fun h0 => ?_
    rw [h0] at hop
    exact absurd hop (by decide)
  | tax hop | inx hop =>
    exact goesOn rfl (by rw [hop]; decide) (fun habs => absurd (hop ▸ habs) (by decide))
      (by rw [hop]; decide)
  | brk hop =>
    have hnone := no_fault_at_pc (s := s) (by rw [hop]; decide)
      (fun habs => absurd (hop ▸ habs) (by decide))
    exact ⟨⟨fun _ => hop, fun _ => rfl⟩, nofun, fun hf => absurd hf hnone⟩

/-- Settles O38: only the first two effects write FAULT. -/
theorem faultsArePrecise : Obligations.FaultsArePrecise := by
  intro s t f hnone h hf
  cases step_effect h with
  | unassigned hop =>
    obtain rfl := Option.some.inj hf
    exact ⟨faultTaken_raiseUnimplemented s, .inl ⟨hop, rfl⟩⟩
  | topWord hop hpc =>
    obtain rfl := Option.some.inj hf
    exact ⟨faultTaken_raise _ s, .inr ⟨hop, hpc, rfl⟩⟩
  | load _ _ _ | tax _ | inx _ | brk _ => cases hnone.symm.trans hf

/-! ### What a step may change (R80) -/

/-- No effect writes a reserved bit of P (R16). -/
theorem step_reservedBits {s t : State} (h : step s = .next t) :
    reservedBits t.p = reservedBits s.p := by
  cases step_effect h with
  | load _ _ _ | tax _ | inx _ => exact reservedBits_setZN s.p _
  | unassigned _ | topWord _ _ | brk _ => rfl

/-- A changed FAULT is a record, with RUN Faulted, of one of the two faults (R19, R157). -/
theorem step_fault_changed {s t : State} (h : step s = .next t) (hne : t.fault ≠ s.fault) :
    t.fault ≠ none ∧ t.run = .faulted ∧ (unassignedAtPc s ∨
      Memory.readAt s.mem s.pc.toNat ∈ absoluteOpcodes ∧ s.pc = 0xFFFE#16) := by
  cases step_effect h with
  | unassigned hop => exact ⟨nofun, rfl, .inl hop⟩
  | topWord hop hpc => exact ⟨nofun, rfl, .inr ⟨hop, hpc⟩⟩
  | load _ _ _ | tax _ | inx _ | brk _ => exact absurd rfl hne

/-- A Running core on which RUN and FAULT agree has no record (R19). -/
theorem fault_eq_none_of_running {s : State} (hr : s.run = .running)
    (hagree : s.run = .faulted ↔ s.fault ≠ none) : s.fault = none := by
  by_contra hf
  cases hr.symm.trans (hagree.2 hf)

/-- Every assigned opcode has one, two or three bytes (R50). -/
theorem table_length_cases {prof : TableProfile} {op : Byte}
    (h : (table prof op).mnemonic ≠ .invalid) : (table prof op).length = 1 ∨
      (table prof op).length = 2 ∨ (table prof op).length = 3 := by
  have rows : ∀ r ∈ tableRows, r.entry.length = 1 ∨ r.entry.length = 2 ∨ r.entry.length = 3 := by
    decide
  obtain ⟨r, hr, -, -, ht⟩ | ht := table_cases prof op
  · rw [ht]
    exact rows r hr
  · exact absurd (congrArg TableEntry.mnemonic ht) h

/-- A step that stays Running has an assigned opcode and moves PC by its length (R75). -/
theorem step_pc_of_running {s t : State} (h : step s = .next t) (hr : t.run = .running) :
    (table .general (Memory.readAt s.mem s.pc.toNat)).mnemonic ≠ .invalid ∧
      t.pc = s.pc + BitVec.ofNat 16 (table .general (Memory.readAt s.mem s.pc.toNat)).length := by
  cases step_effect h with
  | unassigned _ | topWord _ _ | brk _ => cases hr
  | load v hop _ => exact ⟨by rw [hop]; nofun, rfl⟩
  | tax hop | inx hop => rw [hop]; exact ⟨by decide, rfl⟩

/-- A step that leaves Running has moved PC past the opcode only (R140, R157). -/
theorem step_pc_of_not_running {s t : State} (h : step s = .next t) (hr : t.run ≠ .running) :
    t.pc = s.pc + 1#16 := by
  obtain ⟨hrun, -⟩ := step_cases h
  cases step_effect h with
  | unassigned _ | topWord _ _ | brk _ => rfl
  | load _ _ _ | tax _ | inx _ => exact absurd hrun hr

/-- Moving PC by a length in the terms of the claims. -/
theorem pcMoved_of_pc_eq {s t : State} {n : Nat}
    (h : t.pc = s.pc + BitVec.ofNat 16 n) : PcMoved s t n := by
  rw [PcMoved, h, BitVec.toNat_add, BitVec.toNat_ofNat]
  omega

/-- A changes under LDA only. -/
theorem step_a_changed {s t : State} (h : step s = .next t) (hne : t.a ≠ s.a) :
    (table .general (Memory.readAt s.mem s.pc.toNat)).mnemonic = .lda := by
  cases step_effect h with
  | load _ hop _ => exact hop
  | unassigned _ | topWord _ _ | tax _ | inx _ | brk _ => exact absurd rfl hne

/-- X changes under TAX and INX only. -/
theorem step_x_changed {s t : State} (h : step s = .next t) (hne : t.x ≠ s.x) :
    Memory.readAt s.mem s.pc.toNat = 0xAA#8 ∨ Memory.readAt s.mem s.pc.toNat = 0xE8#8 := by
  cases step_effect h with
  | tax hop => exact .inl hop
  | inx hop => exact .inr hop
  | unassigned _ | topWord _ _ | load _ _ _ | brk _ => exact absurd rfl hne

/-- P changes under the three that apply the flag update only (R76). -/
theorem step_p_changed {s t : State} (h : step s = .next t) (hne : t.p ≠ s.p) :
    Memory.readAt s.mem s.pc.toNat = 0xAA#8 ∨ Memory.readAt s.mem s.pc.toNat = 0xE8#8 ∨
      (table .general (Memory.readAt s.mem s.pc.toNat)).mnemonic = .lda := by
  cases step_effect h with
  | tax hop => exact .inl hop
  | inx hop => exact .inr (.inl hop)
  | load _ hop _ => exact .inr (.inr hop)
  | unassigned _ | topWord _ _ | brk _ => exact absurd rfl hne

/-- Settles O36, clause by clause. -/
theorem stepChangesOnly : Obligations.StepChangesOnly := by
  intro s t h
  obtain ⟨hr, -⟩ := step_cases h
  refine ⟨fun _ => by rw [step_mem h], step_y h, step_reservedBits h, step_fault_changed h,
    fun hagree _ => fault_eq_none_of_running hr hagree, fun hrun => ?_,
    fun hstop => pcMoved_of_pc_eq (step_pc_of_not_running h hstop),
    step_a_changed h, step_x_changed h, step_p_changed h⟩
  obtain ⟨hassigned, hpc⟩ := step_pc_of_running h hrun
  exact ⟨_, table_length_cases hassigned, rfl, pcMoved_of_pc_eq hpc⟩

/-! ### The invariant -/

/-- No step sets both flags (R76). -/
theorem step_not_both_flags {s t : State} (h : step s = .next t)
    (hs : ¬ (zFlag s.p = true ∧ nFlag s.p = true)) :
    ¬ (zFlag t.p = true ∧ nFlag t.p = true) := by
  cases step_effect h with
  | load _ _ _ | tax _ | inx _ => exact not_both_flags_setZN s.p _
  | unassigned _ | topWord _ _ | brk _ => exact hs

/-- A step that records a fault leaves Running as Faulted, and no other does (R19, R157). -/
theorem step_faulted_iff_record {s t : State} (h : step s = .next t)
    (hs : s.run = .faulted ↔ s.fault ≠ none) : t.run = .faulted ↔ t.fault ≠ none := by
  obtain ⟨hr, -⟩ := step_cases h
  have hnone := fault_eq_none_of_running hr hs
  cases step_effect h with
  | unassigned _ | topWord _ _ => exact ⟨fun _ => nofun, fun _ => rfl⟩
  | load _ _ _ | tax _ | inx _ => exact hs
  | brk _ => exact ⟨nofun, fun hf => absurd hnone hf⟩

/-- Settles O47: each part of the invariant by itself. -/
theorem stepKeepsInvariant : Obligations.StepKeepsInvariant := by
  rintro s t ⟨hwf, hy, hreserved, hflags, hfault⟩ h
  exact ⟨(step_mem h).symm ▸ hwf, (step_y h).trans hy, (step_reservedBits h).trans hreserved,
    step_not_both_flags h hflags, step_faulted_iff_record h hfault⟩

end Sys2Proof.Machine

namespace Sys2Proof.Machine

/-! ## The two profiles (spec/30_encoding.md R55) -/

/-- An opcode without a row has the sentinel's whole entry (R56). -/
theorem table_eq_sentinel {prof : TableProfile} {op : Byte}
    (h : (table prof op).mnemonic = .invalid) : table prof op = sentinelEntry := by
  have rows : ∀ r ∈ tableRows, r.entry.mnemonic ≠ .invalid := by decide
  obtain ⟨r, hr, -, -, ht⟩ | ht := table_cases prof op
  · exact absurd (ht ▸ h) (rows r hr)
  · exact ht

/-- The profiles give one entry to every opcode but LDA's seven memory forms (R55). -/
theorem table_minimal_eq_general {op : Byte} (h : op ∉ memoryLoadOpcodes) :
    table .minimal op = table .general op := by
  by_cases hop : op ∈ sourceOpcodes
  · simp only [sourceOpcodes, List.mem_cons, List.not_mem_nil, or_false] at hop
    obtain rfl | rfl | rfl | rfl := hop <;> rfl
  · rw [table_eq_sentinel ((table_minimal_invalid op).2 hop),
      table_eq_sentinel ((table_general_invalid op).2 ⟨hop, h⟩)]

/-- MINIMAL assigns none of LDA's seven memory forms (R55). -/
theorem not_mem_sourceOpcodes_of_memoryLoad {op : Byte} (h : op ∈ memoryLoadOpcodes) :
    op ∉ sourceOpcodes := by
  revert op
  decide

/-- A step looks up the opcode at PC and nothing else of the table. -/
theorem stepUnder_congr_table {prof prof' : TableProfile} {s : State}
    (h : table prof (Memory.readAt s.mem s.pc.toNat) =
      table prof' (Memory.readAt s.mem s.pc.toNat)) : stepUnder prof s = stepUnder prof' s := by
  have hfetch : fetchInstr prof s = fetchInstr prof' s := by
    simp only [fetchInstr, fetchBytes, decode, read_eq, h]
  simp only [stepUnder, hfetch]

/-- Settles O40: off the seven forms the opcode's entry is the same, and on them MINIMAL has
none. -/
theorem minimalProfileAgreesOrFaults : Obligations.MinimalProfileAgreesOrFaults := fun s =>
  ⟨fun h => stepUnder_congr_table (table_minimal_eq_general h), fun h hr =>
    ⟨_, stepUnder_of_unassigned hr
      ((table_minimal_invalid _).2 (not_mem_sourceOpcodes_of_memoryLoad h)),
      faultTaken_raiseUnimplemented s⟩⟩

end Sys2Proof.Machine

namespace Sys2Proof.Machine

/-! ## The step is the spec's `Step()` (spec/40_fetch_dispatch.md R74) -/

/-- The value of an operand after the fetch of the opcode is the one before it: the fetch moves PC
only (R105). -/
theorem operandValue_fetchAdvance (s : State) (o : Operand) :
    operandValue (fetchAdvance s) o = operandValue s o := by
  cases o <;> rfl

/-- An instruction of the Absolute family with its opcode at 0xFFFE raises WordReadAtTop (R152). -/
theorem exec_of_top {i : Instr} {s : State} (hword : readsOperandWord i = true)
    (hpc : s.pc = 0xFFFE#16) : exec i s = .next (raise (.wordReadAtTop s.pc) (fetchAdvance s)) := by
  obtain ⟨-, htop, -⟩ | ⟨-, -, e⟩ | ⟨rfl, -⟩ | ⟨rfl, -⟩ | ⟨rfl, -⟩ := exec_cases i s
  · exact absurd hpc (htop hword)
  · exact e
  all_goals cases hword

/-- The operand byte of format F2 stands after the opcode (spec/30_encoding.md R50). -/
theorem read_operandByte {s : State} {op b : Byte} {rest : List Byte}
    (h : fetchBytes s = op :: b :: rest) : Memory.read s.mem (s.pc + 1#16) = b := by
  cases h
  rfl

/-- The operand word of format F3 stands after the opcode, low byte first (R50, R53). It resolves
unless the opcode is at 0xFFFE (R97). -/
theorem resolveWord_after_fetch {s : State} {op : Byte} {w : Word} {rest : List Byte}
    (h : fetchBytes s = op :: loByte w :: hiByte w :: rest) (mk : Word → Operand) :
    resolveWord s.pc (fetchAdvance s) mk =
      if s.pc = 0xFFFE#16 then .raises (.wordReadAtTop s.pc) else .operand (mk w) := by
  have hw : mkWord (Memory.read s.mem (s.pc + 1#16 + 1#16)) (Memory.read s.mem (s.pc + 1#16)) =
      w := by
    rw [← mkWord_hiByte_loByte w, BitVec.add_assoc]
    simp only [fetchBytes, List.cons.injEq] at h
    obtain ⟨-, hlo, hhi, -⟩ := h
    exact congrArg₂ mkWord hhi hlo
  obtain ⟨hpc, e⟩ | ⟨hpc, e⟩ := resolveWord_cases s.pc (fetchAdvance s) mk
  · rw [e, if_pos ((fetchAdvance_pc_top s).1 hpc)]
  · rw [e, if_neg (mt (fetchAdvance_pc_top s).2 hpc)]
    exact congrArg (fun w => Resolved.operand (mk w)) hw

/-- Where the resolver looks for the operand of LDA, it raises WordReadAtTop exactly when the
instruction does, and else finds the instruction's operand (R90, R97). -/
theorem resolve_after_fetch {i : Instr} {s : State} {rest : List Byte}
    (hbytes : fetchBytes s = encode i ++ rest) (hlda : i.mnemonic = .lda) :
    resolve s.pc i.mode (fetchAdvance s) =
      if readsOperandWord i = true ∧ s.pc = 0xFFFE#16 then .raises (.wordReadAtTop s.pc)
      else .operand (ldaOperand i s) := by
  cases i with
  | brk | tax | inx => cases hlda
  | ldaIndirectX b | ldaZeroPage b | ldaImmediate b | ldaIndirectY b | ldaZeroPageX b =>
    obtain rfl := read_operandByte hbytes
    exact (if_neg nofun).symm
  | ldaAbsolute w | ldaAbsoluteY w | ldaAbsoluteX w =>
    exact (resolveWord_after_fetch hbytes _).trans (if_congr (and_iff_right rfl).symm rfl rfl)

/-- An LDA whose bytes stand at PC does what the pseudocode's LDA arm does (R74, R118). -/
theorem exec_lda_eq_pseudoLda {i : Instr} {s : State} {rest : List Byte} (op : Byte)
    (hbytes : fetchBytes s = encode i ++ rest) (hlda : i.mnemonic = .lda) :
    exec i s = .next (pseudoLda op s.pc (BitVec.ofNat 16 (encode i).length) (fetchAdvance s)
      (resolve s.pc i.mode (fetchAdvance s))) := by
  rw [resolve_after_fetch hbytes hlda]
  by_cases htop : readsOperandWord i = true ∧ s.pc = 0xFFFE#16
  · rw [if_pos htop]
    exact exec_of_top htop.1 htop.2
  · obtain ⟨v, hv, hexec⟩ := exec_lda_eq_execLoad hlda fun hword hpc => htop ⟨hword, hpc⟩
    rw [if_neg htop, hexec]
    simp only [pseudoLda, operandValue_fetchAdvance, hv]
    rfl

/-- Settles O41: an unassigned opcode has the sentinel's arm; any other has its instruction's entry,
so the arms agree one by one. -/
theorem stepRefinesThePseudocode : Obligations.StepRefinesThePseudocode := by
  intro prof s hr
  obtain ⟨hinv, -⟩ | ⟨i, hi, ho, -⟩ := fetchInstr_cases prof s
  · rw [stepUnder_of_unassigned hr hinv]
    simp only [pseudoStep, read_eq, hinv]
    rfl
  · obtain ⟨rest, hd⟩ := fetchInstr_ok hi
    obtain ⟨hbytes, hwf⟩ := encodeOfDecode prof _ rest i hd
    obtain ⟨hmnem, hmode, hlen⟩ := table_entry hwf
    rw [ho] at hmnem hmode hlen
    rw [stepUnder_of_fetch hr hi]
    simp only [pseudoStep, read_eq, hmnem, hmode, hlen]
    cases i with
    | brk | tax | inx => rfl
    | ldaIndirectX _ | ldaZeroPage _ | ldaImmediate _ | ldaAbsolute _ | ldaIndirectY _
    | ldaZeroPageX _ | ldaAbsoluteY _ | ldaAbsoluteX _ => exact exec_lda_eq_pseudoLda _ hbytes rfl

end Sys2Proof.Machine

namespace Sys2Proof.Machine

/-! ## What a step depends on -/

/-- The next state under the pseudocode's step (R74). -/
theorem step_eq_pseudoStep {s t : State} (h : step s = .next t) :
    s.run = .running ∧ t = pseudoStep .general s := by
  obtain ⟨hr, -⟩ := step_cases h
  exact ⟨hr, Host.Outcome.next.inj (h.symm.trans (stepRefinesThePseudocode .general s hr))⟩

/-- The LDA arm does not read P (R15). -/
theorem pseudoLda_with_p (op : Byte) (opcAddr length : Word) (s : State) (q : Byte)
    (r : Resolved) : ∃ q', pseudoLda op opcAddr length { s with p := q } r =
      { pseudoLda op opcAddr length s r with p := q' } := by
  cases r with
  | raises _ | neverCalled => exact ⟨q, rfl⟩
  | operand o =>
    cases o with
    | noOperand | target _ => exact ⟨q, rfl⟩
    | acc | lit _ | addr _ _ => exact ⟨_, rfl⟩

/-- No arm of the step reads P (R15). -/
theorem pseudoStep_with_p (prof : TableProfile) (s : State) (q : Byte) :
    ∃ q', pseudoStep prof { s with p := q } = { pseudoStep prof s with p := q' } := by
  simp only [pseudoStep]
  cases (table prof (Memory.read s.mem s.pc)).mnemonic with
  | lda =>
    have hres : resolve s.pc (table prof (Memory.read s.mem s.pc)).mode
        (fetchAdvance { s with p := q }) =
        resolve s.pc (table prof (Memory.read s.mem s.pc)).mode (fetchAdvance s) := by
      cases (table prof (Memory.read s.mem s.pc)).mode <;> rfl
    exact hres ▸ pseudoLda_with_p _ _ _ (fetchAdvance s) q _
  | brk | invalid => exact ⟨q, rfl⟩
  | tax | inx => exact ⟨_, rfl⟩

/-- Settles O42: P goes into the next P only. -/
theorem statusIsNeverRead : Obligations.StatusIsNeverRead := by
  intro s t q h
  obtain ⟨hr, rfl⟩ := step_eq_pseudoStep h
  obtain ⟨q', hq'⟩ := pseudoStep_with_p .general s q
  exact ⟨q', hq' ▸ stepRefinesThePseudocode .general { s with p := q } hr⟩

/-- The LDA arm reads the data byte and no other of memory. -/
theorem pseudoLda_with_mem (op : Byte) (opcAddr length : Word) (s : State) {m : Memory}
    {r : Resolved} (h : ∀ a ∈ dataReads r, Memory.read m a = Memory.read s.mem a) :
    pseudoLda op opcAddr length { s with mem := m } r =
      { pseudoLda op opcAddr length s r with mem := m } := by
  cases r with
  | raises _ | neverCalled => rfl
  | operand o =>
    cases o with
    | noOperand | target _ | acc | lit _ => rfl
    | addr ea c =>
      simp only [pseudoLda, operandValue, h ea (by simp [dataReads])]
      rfl

/-- A pointer's word is decided by its two bytes (R102). -/
theorem pointerWord_congr {m m' : Memory} {ptr : Byte}
    (h : ∀ a ∈ pointerReads ptr, Memory.read m a = Memory.read m' a) :
    pointerWord m ptr = pointerWord m' ptr := by
  rw [pointerWord, pointerWord, h _ (by simp [pointerReads]), h _ (by simp [pointerReads])]

/-- The word at PC is decided by its two bytes, or by none at 0xFFFF (R97; D5, log 6). -/
theorem resolveWord_with_mem (opcAddr : Word) (s : State) (mk : Word → Operand) {m : Memory}
    (h : ∀ a ∈ (if s.pc = 0xFFFF#16 then [] else [s.pc, s.pc + 1#16]),
      Memory.read m a = Memory.read s.mem a) :
    resolveWord opcAddr { s with mem := m } mk = resolveWord opcAddr s mk := by
  by_cases hpc : s.pc = 0xFFFF#16
  · rw [resolveWord_top hpc, resolveWord_top (s := { s with mem := m }) hpc]
  · rw [if_neg hpc] at h
    rw [resolveWord_below hpc, resolveWord_below (s := { s with mem := m }) hpc,
      h s.pc (by simp), h (s.pc + 1#16) (by simp)]

/-- The resolver reads the operand bytes and the pointer bytes of its mode and no other of
memory. -/
theorem resolve_with_mem (opcAddr : Word) (mode : AddressingMode) (s : State) {m : Memory}
    (hop : ∀ a ∈ operandReads mode s.pc, Memory.read m a = Memory.read s.mem a)
    (hptr : ∀ a ∈ pointerReadsOf mode s, Memory.read m a = Memory.read s.mem a) :
    resolve opcAddr mode { s with mem := m } = resolve opcAddr mode s := by
  cases mode with
  | implied | accumulator | none => rfl
  | absolute | absoluteX | absoluteY => exact resolveWord_with_mem opcAddr s _ hop
  | immediate | zeroPage | zeroPageX | zeroPageY | relative =>
    simp only [resolve, hop s.pc (by simp [operandReads])]
  | indirectX | indirectY =>
    simp only [resolve, indirectXEa, hop s.pc (by simp [operandReads]), pointerWord_congr hptr]

/-- The mode's operand bytes and pointer bytes are three at most. -/
theorem length_operandReads_add_pointerReadsOf (mode : AddressingMode) (addr : Word) (s : State) :
    (operandReads mode addr).length + (pointerReadsOf mode s).length ≤ 3 := by
  cases mode with
  | absolute | absoluteX | absoluteY =>
    simp only [operandReads, pointerReadsOf]
    split_ifs <;> simp
  | implied | accumulator | none | immediate | zeroPage | zeroPageX | zeroPageY | relative
  | indirectX | indirectY => simp [operandReads, pointerReadsOf, pointerReads]

/-- There is one data byte at most. -/
theorem length_dataReads (r : Resolved) : (dataReads r).length ≤ 1 := by
  cases r with
  | raises _ | neverCalled => exact Nat.zero_le _
  | operand o => cases o <;> simp [dataReads]

/-- The step reads the bytes of `stepReads` and no other of memory, and writes none (R36). -/
theorem pseudoStep_with_mem {prof : TableProfile} {s : State} {m : Memory}
    (h : ∀ a ∈ stepReads prof s, Memory.read m a = Memory.read s.mem a) :
    pseudoStep prof { s with mem := m } = { pseudoStep prof s with mem := m } := by
  simp only [stepReads, List.mem_cons, List.mem_append] at h
  simp only [pseudoStep, h s.pc (.inl rfl)]
  cases (table prof (Memory.read s.mem s.pc)).mnemonic with
  | brk | tax | inx | invalid => rfl
  | lda =>
    have hres := resolve_with_mem s.pc (table prof (Memory.read s.mem s.pc)).mode (fetchAdvance s)
      (fun a ha => h a (.inr (.inl ha))) (fun a ha => h a (.inr (.inr (.inl ha))))
    have hlda := pseudoLda_with_mem (Memory.read s.mem s.pc) s.pc
      (BitVec.ofNat 16 (table prof (Memory.read s.mem s.pc)).length) (fetchAdvance s)
      (fun a ha => h a (.inr (.inr (.inr ha))))
    exact hres ▸ hlda

/-- Settles O44: the reads decide the pseudocode's step, and their parts are 1, 3 and 1 at most. -/
theorem stepDependsOnlyOnItsReads : Obligations.StepDependsOnlyOnItsReads := by
  constructor
  · intro s
    have h := length_operandReads_add_pointerReadsOf
      (table .general (Memory.read s.mem s.pc)).mode (fetchAdvance s).pc (fetchAdvance s)
    have h' := length_dataReads (resolve s.pc (table .general (Memory.read s.mem s.pc)).mode
      (fetchAdvance s))
    simp only [stepReads, List.length_cons, List.length_append]
    omega
  · intro s t m h hreads
    obtain ⟨hr, rfl⟩ := step_eq_pseudoStep h
    rw [← pseudoStep_with_mem hreads]
    exact stepRefinesThePseudocode .general { s with mem := m } hr

/-- A run state is known from whether it is Halted and whether it is Faulted (R18). -/
theorem runState_eq_of_iff {r r' : RunState} (hhalt : r' = .halted ↔ r = .halted)
    (hfault : r' = .faulted ↔ r = .faulted) : r' = r := by
  cases r with
  | halted => exact hhalt.2 rfl
  | faulted => exact hfault.2 rfl
  | running =>
    cases r' with
    | running => rfl
    | halted => exact (hhalt.1 rfl).symm
    | faulted => exact (hfault.1 rfl).symm

/-- The byte at PC and PC decide how a step leaves RUN (R193). -/
theorem step_run_congr {s s' t t' : State} (h : step s = .next t) (h' : step s' = .next t')
    (hop : Memory.readAt s'.mem s'.pc.toNat = Memory.readAt s.mem s.pc.toNat)
    (hpc : s'.pc = s.pc) : t'.run = t.run := by
  obtain ⟨hhalt, hfault⟩ := howAStepEnds s t h
  obtain ⟨hhalt', hfault'⟩ := howAStepEnds s' t' h'
  have hunassigned : unassignedAtPc s' ↔ unassignedAtPc s := by simp only [unassignedAtPc, hop]
  rw [hop, ← hhalt] at hhalt'
  rw [hunassigned, hop, hpc, ← hfault] at hfault'
  exact runState_eq_of_iff hhalt' hfault'

/-- The byte at PC and PC decide where a step leaves PC (R193). -/
theorem step_pc_congr {s s' t t' : State} (h : step s = .next t) (h' : step s' = .next t')
    (hop : Memory.readAt s'.mem s'.pc.toNat = Memory.readAt s.mem s.pc.toNat)
    (hpc : s'.pc = s.pc) : t'.pc = t.pc := by
  have hrun := step_run_congr h h' hop hpc
  by_cases hr : t.run = .running
  · obtain ⟨-, e⟩ := step_pc_of_running h hr
    obtain ⟨-, e'⟩ := step_pc_of_running h' (hrun.trans hr)
    rw [e, e', hop, hpc]
  · rw [step_pc_of_not_running h hr, step_pc_of_not_running h' (hrun ▸ hr), hpc]

/-- Settles O43: both runs step together, and end together. -/
theorem memoryDecidesTheRun : Obligations.MemoryDecidesTheRun := by
  intro n
  induction n with
  | zero => exact fun s s' hbytes hpc hrun => ⟨hpc, hrun, hbytes⟩
  | succ n ih =>
    intro s s' hbytes hpc hrun
    by_cases hr : s.run = .running
    · obtain ⟨t, ht⟩ := runningStepHasNextState s hr
      obtain ⟨t', ht'⟩ := runningStepHasNextState s' (hrun.trans hr)
      have hop : Memory.readAt s'.mem s'.pc.toNat = Memory.readAt s.mem s.pc.toNat := by
        rw [hpc]
        exact hbytes s.pc
      simp only [runFor, ht, ht']
      refine ih t t' (fun a => ?_) (step_pc_congr ht ht' hop hpc) (step_run_congr ht ht' hop hpc)
      rw [step_mem ht, step_mem ht']
      exact hbytes a
    · rw [runFor_of_not_running hr, runFor_of_not_running (hrun ▸ hr)]
      exact ⟨hpc, hrun, hbytes⟩

end Sys2Proof.Machine

namespace Sys2Proof.Machine

/-! ## The indexed modes: Y = 0x00, and the price of a page crossing -/

/-- The index 0x00 adds nothing to an address. -/
theorem absoluteIndexedEa_zero (w : Word) : absoluteIndexedEa w 0x00#8 = w := by
  simp [absoluteIndexedEa, zext16]

/-- The index 0x00 crosses no page (R100). -/
theorem indexedOperand_zero (w : Word) : indexedOperand w 0x00#8 = .addr w false := by
  simp [indexedOperand, absoluteIndexedEa_zero, pageCrossed]

/-- Settles O45: the index added is 0x00. -/
theorem yModesWithoutY : Obligations.YModesWithoutY := by
  intro s w b opcAddr hy
  refine ⟨?_, ?_, ?_, ?_⟩
  · have hexec : exec (.ldaAbsoluteY w) s = execLoadAbsolute (absoluteIndexedEa w s.y) s := rfl
    rw [hexec, hy, absoluteIndexedEa_zero]
    rfl
  · simp only [resolve, hy, zeroPageIndexedEa, zeroPageEa, BitVec.add_zero]
  · simp only [resolve, hy, indexedOperand_zero]
  · obtain ⟨-, t, ht, hload⟩ := ldaIndirectYResult b s
    have hlt := (pointerWord s.mem b).isLt
    rw [pointerWord_eq_wordAt] at hlt
    rw [hy, BitVec.toNat_ofNat, Nat.zero_mod, Nat.add_zero, Nat.mod_eq_of_lt hlt] at hload
    exact ⟨t, ht, hload⟩

/-- The cost of an opcode that pays for a page crossing: one cycle more exactly when its index
changes the high byte of the address (R191, R192). -/
theorem cycleCost_of_indexed {s : State} {op index : Byte} {base : Word}
    (hop : Memory.readAt s.mem s.pc.toNat = op)
    (hpays : (table .general op).pageCrossPlusOne = true)
    (hres : resolve s.pc (table .general op).mode (fetchAdvance s) =
      .operand (indexedOperand base index)) :
    cycleCost .general s =
      if (base.toNat + index.toNat) % 65536 / 256 = base.toNat / 256
      then (table .general op).cycles else (table .general op).cycles + 1 := by
  have hcross := pageCrossed_iff base (absoluteIndexedEa base index)
  rw [absoluteIndexedEa_toNat] at hcross
  simp only [cycleCost, read_eq, hop, hpays, hres, indexedOperand, Resolved.crossed,
    Bool.true_and, hcross, ne_eq, ite_not]
  split_ifs <;> rfl

/-- The fetch leaves PC at the operand (R72). -/
theorem fetchAdvance_pc_toNat (s : State) : (fetchAdvance s).pc.toNat = (s.pc.toNat + 1) % 65536 :=
  pcMoved_fetchAdvance s

/-- The cost of an opcode that adds its index to the operand word, read at the address after the
opcode (R98, R99, R191). -/
theorem cycleCost_of_operandWord {s : State} {op index : Byte}
    (hop : Memory.readAt s.mem s.pc.toNat = op)
    (hpays : (table .general op).pageCrossPlusOne = true)
    (hres : resolve s.pc (table .general op).mode (fetchAdvance s) =
      resolveWord s.pc (fetchAdvance s) (fun w => indexedOperand w index))
    (hpc : s.pc ≠ 0xFFFE#16) :
    cycleCost .general s =
      if (wordAt s.mem ((s.pc.toNat + 1) % 65536) + index.toNat) % 65536 / 256 =
        wordAt s.mem ((s.pc.toNat + 1) % 65536) / 256
      then (table .general op).cycles else (table .general op).cycles + 1 := by
  have htop := mt (fetchAdvance_pc_top s).1 hpc
  rw [← fetchAdvance_pc_toNat, ← fetchAdvance_mem, ← mkWord_read_toNat htop]
  exact cycleCost_of_indexed hop hpays (hres.trans (resolveWord_below htop s.pc _))

/-- Settles O30: the base is the operand word for BD and B9, and the pointer's word for B1. -/
theorem pageCrossCost : Obligations.PageCrossCost := by
  intro s
  refine ⟨?_, ?_, ?_⟩
  · rintro hop hpc w rfl
    exact cycleCost_of_operandWord hop rfl rfl hpc
  · rintro hop hpc w rfl
    exact cycleCost_of_operandWord hop rfl rfl hpc
  · rintro hop w rfl
    rw [← fetchAdvance_pc_toNat, ← pointerWord_eq_wordAt]
    exact cycleCost_of_indexed hop rfl rfl

end Sys2Proof.Machine

namespace Sys2Proof.Machine

/-! ## Reset, load and the host's calls (spec/70_reset_and_hazards.md) -/

/-- The launch state on a canonical memory meets the invariant (R24). -/
theorem stateInv_launch {m : Memory} (h : Memory.wf m = true) : StateInv (launch m) :=
  ⟨h, rfl, by rw [launch_p]; decide, by rw [launch_p]; decide, by simp⟩

/-- A run keeps the invariant (R80). -/
theorem stateInv_runFor (n : Nat) {s : State} (h : StateInv s) : StateInv (runFor n s) :=
  runFor_keeps stepKeepsInvariant n h

/-- `load` writes an accepted image to memory, or is refused (R186, R153). -/
theorem hostLoad_cases (image : List Byte) (c : Session) :
    (∃ m, loadImage image (sessionMem c) = some m ∧
      hostLoad image c = (.done, withSessionMem m c)) ∨
    hostLoad image c = (.error (.outOfBoundsLoad image.length), c) := by
  unfold hostLoad
  cases loadImage image (sessionMem c) with
  | none => exact .inr rfl
  | some m => exact .inl ⟨m, rfl, rfl⟩

/-- `write_word` writes its word to memory, or is refused (R34, R187). -/
theorem hostWriteWord_cases (addr w : Word) (c : Session) :
    (∃ m, Memory.writeWord (sessionMem c) addr w = some m ∧
      hostWriteWord addr w c = (.done, withSessionMem m c)) ∨
    hostWriteWord addr w c = (.error .wordAccessAtTop, c) := by
  unfold hostWriteWord
  cases Memory.writeWord (sessionMem c) addr w with
  | none => exact .inr rfl
  | some m => exact .inl ⟨m, rfl, rfl⟩

/-- The word read has no effect, whether it answers or is refused. -/
theorem hostReadWord_snd (addr : Word) (c : Session) : (hostReadWord addr c).2 = c := by
  unfold hostReadWord
  cases Memory.readWord (sessionMem c) addr <;> rfl

/-- The inspection has no effect. -/
theorem hostInspect_snd (c : Session) : (hostInspect c).2 = c := by
  cases c <;> rfl

/-- `run` leaves the core as it was, or answers Ok or Err with the state the steps reach (R73). -/
theorem hostRunLive_cases (fuel : Nat) (s : State) : (hostRunLive fuel s).2 = .live s ∨
    (∀ e, (hostRunLive fuel s).1 ≠ .error e) ∧
      (hostRunLive fuel s).2 = .live (runFor fuel s) := by
  unfold hostRunLive
  cases s.run with
  | halted | faulted => exact .inl rfl
  | running =>
    cases (runFor fuel s).run with
    | running => exact .inl rfl
    | halted | faulted => exact .inr ⟨nofun, rfl⟩

/-- Every host call keeps the invariant (R185 to R188). -/
theorem sessionInv_hostCall (call : HostCall) {c : Session} (h : SessionInv c) :
    SessionInv (hostCall call c).2 := by
  have hmem := wf_sessionMem h
  cases call with
  | load image =>
    obtain ⟨m, hm, e⟩ | e := hostLoad_cases image c <;> rw [hostCall, e]
    · exact sessionInv_withSessionMem h (wf_loadImage hmem hm)
    · exact h
  | writeWord addr w =>
    obtain ⟨m, hm, e⟩ | e := hostWriteWord_cases addr w c <;> rw [hostCall, e]
    · exact sessionInv_withSessionMem h (wf_writeWord hmem hm)
    · exact h
  | write addr v => exact sessionInv_withSessionMem h (wf_write hmem addr v)
  | read addr => exact h
  | readWord addr => exact (hostReadWord_snd addr c).symm ▸ h
  | reset => exact stateInv_launch hmem
  | inspect => exact (hostInspect_snd c).symm ▸ h
  | run fuel =>
    cases c with
    | constructed m => exact h
    | live s =>
      obtain e | ⟨-, e⟩ := hostRunLive_cases fuel s <;> rw [hostCall, hostRun, e]
      · exact h
      · exact stateInv_runFor fuel h

/-- Settles O48: one call after the other. -/
theorem hostCallsKeepInvariant : Obligations.HostCallsKeepInvariant := by
  intro calls
  induction calls with
  | nil => exact fun _ h => h
  | cons call calls ih => exact fun c h => ih _ (sessionInv_hostCall call h)

/-- Settles O46: a reset of a new core and a reset of any core are launches. -/
theorem resetMeetsInvariant : Obligations.ResetMeetsInvariant :=
  ⟨launch_empty ▸ stateInv_launch wf_reset, fun _ h => stateInv_launch h⟩

/-- Settles O49: the launch on the zero memory. -/
theorem resetOfNewCore : Obligations.ResetOfNewCore :=
  ⟨by rw [← launch_empty]; rfl, rfl, rfl, rfl, rfl, rfl, rfl, rfl, fun _ => rfl⟩

/-- PC after reset is the vector's word (R180, R181). -/
theorem launch_pc_toNat (m : Memory) : (launch m).pc.toNat = wordAt m 0xFFFC :=
  mkWord_read_toNat (a := Config.resetVector) (by decide) m

/-- Settles O50: the fields of a launch. -/
theorem resetFromAnyState : Obligations.ResetFromAnyState := fun c =>
  ⟨_, rfl, rfl, rfl, rfl, rfl, launch_pc_toNat (sessionMem c), rfl, rfl, rfl⟩

/-- Every byte after an accepted load: the vector over the image over the old memory (R186). -/
theorem loadImage_spec {image : List Byte} (h : image.length ≤ 0x8000) (m : Memory) :
    ∃ m', loadImage image m = some m' ∧ ∀ n, Memory.readAt m' n =
      if n = 0xFFFC then 0x00#8 else if n = 0xFFFD then 0x80#8
      else if 0x8000 ≤ n ∧ n < 0x8000 + image.length then image.getD (n - 0x8000) 0x00#8
      else Memory.readAt m n := by
  have hbase : Config.loadBase.toNat = 0x8000 := rfl
  have hlo : Config.resetVector.toNat = 0xFFFC := rfl
  have hhi : (Config.resetVector + 1#16).toNat = 0xFFFD := rfl
  refine ⟨_, loadImage_of_le h m, fun n => ?_⟩
  rw [readAt_write, readAt_write, readAt_copy _ _ _ (by omega), hbase, hlo, hhi]
  have hbytes : loByte Config.loadBase = 0x00#8 ∧ hiByte Config.loadBase = 0x80#8 := by decide
  grind

/-- An accepted load changes memory only (R186). -/
theorem hostLoad_of_loadImage {image : List Byte} {c : Session} {m : Memory}
    (h : loadImage image (sessionMem c) = some m) :
    hostCall (.load image) c = (.done, withSessionMem m c) := by
  simp only [hostCall, hostLoad, h]

/-- Settles O51: what is written is the memory of the accepted load. -/
theorem loadPlacesTheImage : Obligations.LoadPlacesTheImage := by
  intro image c h
  obtain ⟨m, hm, hbytes⟩ := loadImage_spec h (sessionMem c)
  exact ⟨m, hostLoad_of_loadImage hm, fun n _ => hbytes n⟩

/-- Settles O52: the image does not fit. -/
theorem oversizedLoadIsRefused : Obligations.OversizedLoadIsRefused := by
  intro image c h
  simp only [hostCall, hostLoad, loadImage_of_gt h]

/-- Settles O53: the vector the load placed is where the reset goes and the first fetch reads. -/
theorem loadThenReset : Obligations.LoadThenReset := by
  intro image c h
  obtain ⟨m, hm, hbytes⟩ := loadImage_spec h (sessionMem c)
  have hpc : (launch m).pc = 0x8000#16 := by
    apply BitVec.eq_of_toNat_eq
    rw [launch_pc_toNat, wordAt, hbytes, hbytes]
    rfl
  refine ⟨_, launch m, hostLoad_of_loadImage hm, ?_, hpc, rfl, rfl, rfl, rfl, ?_⟩
  · simp only [hostCall, sessionMem_withSessionMem]
  · rw [fetchBytes, hpc, List.head?_cons, launch_mem, read_eq, hbytes]
    cases image <;> simp

/-- A run of `n + k` steps is one of `n` and then one of `k` (R73). -/
theorem runFor_add (n k : Nat) (s : State) : runFor (n + k) s = runFor k (runFor n s) := by
  induction n generalizing s with
  | zero => rw [Nat.zero_add]; rfl
  | succ n ih =>
    rw [Nat.add_right_comm]
    by_cases hr : s.run = .running
    · obtain ⟨t, ht⟩ := runningStepHasNextState s hr
      simp only [runFor, ht, ih]
    · simp only [runFor_of_not_running hr]

/-- Settles O54: the steps after the end are a run from a core that is not Running. -/
theorem endedRunStaysEnded : Obligations.EndedRunStaysEnded := by
  intro n k s h
  rw [runFor_add, runFor_of_not_running h]

/-- Settles O55: the reply follows RUN where the steps lead, and the invariant there says whether
there is a record. -/
theorem runReturnsOkOrErr : Obligations.RunReturnsOkOrErr := by
  intro fuel s hs hr
  refine ⟨⟨rfl, fun t ht => by simp only [runFor, ht]⟩, ?_⟩
  obtain ⟨-, -, -, -, hfault⟩ := stateInv_runFor fuel hs
  cases hend : (runFor fuel s).run with
  | running => exact .inr (.inr ⟨by simp only [hostCall, hostRun, hostRunLive, hr, hend], rfl⟩)
  | halted =>
    refine .inl ⟨_, by simp only [hostCall, hostRun, hostRunLive, hr, hend], rfl, hend, ?_⟩
    by_contra hne
    cases hend.symm.trans (hfault.2 hne)
  | faulted =>
    obtain ⟨f, hf⟩ := Option.ne_none_iff_exists'.1 (hfault.1 hend)
    exact .inr (.inl ⟨_, f, by simp only [hostCall, hostRun, hostRunLive, hr, hend, hf], rfl, hend,
      hf⟩)

/-- Settles O56: before the first reset, and for each of the two stopped states. -/
theorem runIsRefusedUnlessRunning : Obligations.RunIsRefusedUnlessRunning := by
  intro fuel c h
  cases c with
  | constructed m => rfl
  | live s =>
    have hr := h s rfl
    cases hs : s.run with
    | running => exact absurd hs hr
    | halted | faulted => simp only [hostCall, hostRun, hostRunLive, hs]

/-- Settles O57: each call that can be refused answers with the core it was given. -/
theorem refusedCallsHaveNoEffect : Obligations.RefusedCallsHaveNoEffect := by
  intro call c e h
  cases call with
  | write _ _ | read _ | reset => cases h
  | readWord addr => exact hostReadWord_snd addr c
  | inspect => exact hostInspect_snd c
  | load image =>
    obtain ⟨m, -, e'⟩ | e' := hostLoad_cases image c <;> rw [hostCall, e'] at h ⊢
    cases h
  | writeWord addr w =>
    obtain ⟨m, -, e'⟩ | e' := hostWriteWord_cases addr w c <;> rw [hostCall, e'] at h ⊢
    cases h
  | run fuel =>
    cases c with
    | constructed m => rfl
    | live s =>
      obtain e' | ⟨hok, -⟩ := hostRunLive_cases fuel s
      · exact e'
      · exact absurd h (hok e)

/-- A call that is neither reset nor run changes at most the memory of a core that has been reset
(R187). -/
theorem hostCall_live_eq_with_mem {call : HostCall} (s : State) (hreset : call ≠ .reset)
    (hrun : ∀ fuel, call ≠ .run fuel) :
    ∃ m, (hostCall call (.live s)).2 = .live { s with mem := m } := by
  cases call with
  | load image =>
    obtain ⟨m, -, e⟩ | e := hostLoad_cases image (.live s) <;> rw [hostCall, e]
    · exact ⟨m, rfl⟩
    · exact ⟨s.mem, rfl⟩
  | writeWord addr w =>
    obtain ⟨m, -, e⟩ | e := hostWriteWord_cases addr w (.live s) <;> rw [hostCall, e]
    · exact ⟨m, rfl⟩
    · exact ⟨s.mem, rfl⟩
  | write addr v => exact ⟨_, rfl⟩
  | read addr => exact ⟨s.mem, rfl⟩
  | readWord addr => exact ⟨s.mem, hostReadWord_snd addr (.live s)⟩
  | inspect => exact ⟨s.mem, rfl⟩
  | reset => exact absurd rfl hreset
  | run fuel => exact absurd rfl (hrun fuel)

/-- Settles O58: memory is no register. -/
theorem hostWritesNoRegister : Obligations.HostWritesNoRegister := by
  intro call s hreset hrun
  obtain ⟨m, hm⟩ := hostCall_live_eq_with_mem s hreset hrun
  exact ⟨_, hm, rfl, rfl, rfl, rfl, rfl, rfl, rfl⟩

/-- A run leaves the memory it found (R182). -/
theorem sessionMem_hostRun (fuel : Nat) (c : Session) :
    sessionMem (hostCall (.run fuel) c).2 = sessionMem c := by
  cases c with
  | constructed m => rfl
  | live s =>
    obtain e | ⟨-, e⟩ := hostRunLive_cases fuel s
    · exact congrArg sessionMem e
    · exact (congrArg sessionMem e).trans (runFor_mem fuel s)

/-- Settles O59: a reset sees the core's memory only, which a run keeps. -/
theorem resetRepeatsTheRun : Obligations.ResetRepeatsTheRun := fun fuel c =>
  congrArg (fun m => (HostReply.done, Session.live (launch m))) (sessionMem_hostRun fuel c)

/-- Settles O60: the byte at the address is what a read returns and a write replaces. -/
theorem hostAccessesReachTheCore : Obligations.HostAccessesReachTheCore := by
  intro c addr v
  refine ⟨rfl, ⟨_, rfl, fun n => ?_⟩, ?_, ?_⟩
  · simp only [readAt_write, eq_comm]
  · rintro s rfl; rfl
  · rintro m rfl; rfl

end Sys2Proof.Machine
